-- ==== Sys2Proof/Word.lean ====
section
/-! DEFINITION. The word types of the machine (00_scope.md R6, R10): every quantity is unsigned and
of a fixed width, so each is a bit vector of that width, and widening adds zero bits. -/

namespace Sys2Proof

/-- A byte: a general register, a timer, a memory cell (R6, R10). -/
abbrev Byte := BitVec 8

/-- A 16-bit word: an opcode, `PC`, `I`, a stack entry, `WC` (R6, R23, R25, R26, R35). -/
abbrev Word := BitVec 16

/-- A 4-bit slice of an opcode, the width of a register selector, a sprite height, a key code and of
the live bits of `SP` (R10, R21, R26, R32). -/
abbrev Nibble := BitVec 4

/-- The 12-bit address field `nnn` (R6, R91). -/
abbrev Addr12 := BitVec 12

/-- `zext_16` of a byte (R10). -/
def Byte.zext16 (b : Byte) : Word := b.setWidth 16

/-- `zext_16` of a 12-bit address (R10, R93). -/
def Addr12.zext16 (a : Addr12) : Word := a.setWidth 16

/-- `zext_8` of a nibble (R10, R233). -/
def Nibble.zext8 (k : Nibble) : Byte := k.setWidth 8

end Sys2Proof
end

