-- ==== Sys2Proof/Config.lean ====
section
/-! DEFINITION. What is fixed for the machine: the sizes of 00_scope.md R6, the open parameters of
00_scope.md R7 with the values the spec takes for them, and the one free value (the random byte). -/

namespace Sys2Proof.Config

/-- MEM_SIZE (R6): addresses 0x000 to 0xFFF exist. -/
abbrev memSize : Nat := 0x1000

/-- PROGRAM_BASE (R6): the load address, and the value of `PC` after reset (R292). -/
abbrev programBase : Nat := 0x200

/-- The largest program image in bytes, 0x1000 - 0x200 (R61, R122). -/
abbrev maxImage : Nat := 3584

/-- FONT_SIZE (R6): the font table lies at 0x000 to 0x04F. -/
abbrev fontSize : Nat := 80

/-- FONT, glyphs 0 to 7 (20_memory.md R68).
PRESUMED, unsafe: the conventional font, which no sentence of the source gives (log 3). -/
def fontLow : List Byte :=
  [0xF0, 0x90, 0x90, 0x90, 0xF0] ++ [0x20, 0x60, 0x20, 0x20, 0x70] ++
  [0xF0, 0x10, 0xF0, 0x80, 0xF0] ++ [0xF0, 0x10, 0xF0, 0x10, 0xF0] ++
  [0x90, 0x90, 0xF0, 0x10, 0x10] ++ [0xF0, 0x80, 0xF0, 0x10, 0xF0] ++
  [0xF0, 0x80, 0xF0, 0x90, 0xF0] ++ [0xF0, 0x10, 0x20, 0x40, 0x40]

/-- FONT, glyphs 8 to F (20_memory.md R68).
PRESUMED, unsafe: as `fontLow` (log 3). -/
def fontHigh : List Byte :=
  [0xF0, 0x90, 0xF0, 0x90, 0xF0] ++ [0xF0, 0x90, 0xF0, 0x10, 0xF0] ++
  [0xF0, 0x90, 0xF0, 0x90, 0x90] ++ [0xE0, 0x90, 0xE0, 0x90, 0xE0] ++
  [0xF0, 0x80, 0x80, 0x80, 0xF0] ++ [0xE0, 0x90, 0x90, 0x90, 0xE0] ++
  [0xF0, 0x80, 0xF0, 0x80, 0xF0] ++ [0xF0, 0x80, 0xF0, 0x80, 0x80]

/-- FONT (R7, R68): glyph `d` at `5 * d`. -/
def font : List Byte := fontLow ++ fontHigh

/-- RESET_FILL (R7, 10_state.md R39): the number that every element has after reset for which the source gives
no value.
DESIGN CHOICE (the spec's D7), unsafe (log 5). -/
def resetFill : Nat := 0

/-- RESET_FILL in an element of `k` bits. -/
def fill (k : Nat) : BitVec k := BitVec.ofNat k resetFill

/-- RESET_FILL in an element of one bit: a pixel, a key. -/
def fillBit : Bool := resetFill.testBit 0

/-- NOKEY (R7, 10_state.md R33): the content of the last-key slot that is no key code.
DESIGN CHOICE (the spec's D17), safe: abstract, a value of the type that no key equals (log 14). -/
abbrev noKey : Option Nibble := none

/-- ST_TICK (R7, 10_state.md R28): whether `tick` also decrements `ST`.
DESIGN CHOICE (the spec's D8), unsafe (log 6). -/
def stTick : Bool := false

/-- SPRITE_MSB_LEFT (R7, 44_draw.md R210): bit 7 of a sprite byte is the left column.
PRESUMED (the spec's D5, G3), unsafe (log 4). -/
def spriteMsbLeft : Bool := true

/-- ALIAS_DECODE (R7, 30_encoding.md R97): whether a word that differs from a canonical encoding only
in bits no mask tests selects the same handler.
DESIGN CHOICE (the spec's D3), unsafe (log 2). -/
def aliasDecode : Bool := true

/-- The values of VF_OPERAND_POLICY (92_eei_decisions.md D12). -/
inductive VfOperandPolicy where
  /-- The operands are latched and both writes happen, in the source's listed order (42_alu.md R172). -/
  | literal
  /-- An instruction that writes its flag to `VF` and has `VF` as its destination is refused. -/
  | refuse
  deriving DecidableEq, Repr

/-- VF_OPERAND_POLICY (R7, 42_alu.md R172): what an instruction does whose result and flag both go to `VF`.
DESIGN CHOICE (the spec's D12), unsafe (log 10). -/
def vfOperandPolicy : VfOperandPolicy := .literal

/-- `Rnd` (R7, R237): the byte drawn by the `n`-th RND of a run. A free value: it has no body here that
a proof could see, so a theorem holds for every sequence of draws (log 15). -/
opaque rnd : Nat → Byte

end Sys2Proof.Config
end

