-- ==== Sys2Proof/Syntax.lean ====
section
/-! DEFINITION. The instruction set as syntax: one constructor per row of the opcode table
(30_encoding.md R95, spec/opcode_table.json), with the operand fields of its format (R92). -/

namespace Sys2Proof

/-- The 34 instructions and Illegal (00_scope.md R2). A field has the width the format gives it
(30_encoding.md R91, R93), so an operand outside its range cannot be written. -/
inductive Instr where
  /-- CLS, `00E0`. -/
  | cls
  /-- RET, `00EE`. -/
  | ret
  /-- JP nnn, `1nnn`. -/
  | jpNnn (nnn : Addr12)
  /-- CALL nnn, `2nnn`. -/
  | callNnn (nnn : Addr12)
  /-- SE Vx,kk, `3xkk`. -/
  | seVxKk (x : Nibble) (kk : Byte)
  /-- SNE Vx,kk, `4xkk`. -/
  | sneVxKk (x : Nibble) (kk : Byte)
  /-- SE Vx,Vy, `5xy0`. -/
  | seVxVy (x y : Nibble)
  /-- LD Vx,kk, `6xkk`. -/
  | ldVxKk (x : Nibble) (kk : Byte)
  /-- ADD Vx,kk, `7xkk`. -/
  | addVxKk (x : Nibble) (kk : Byte)
  /-- LD Vx,Vy, `8xy0`. -/
  | ldVxVy (x y : Nibble)
  /-- OR Vx,Vy, `8xy1`. -/
  | orVxVy (x y : Nibble)
  /-- AND Vx,Vy, `8xy2`. -/
  | andVxVy (x y : Nibble)
  /-- XOR Vx,Vy, `8xy3`. -/
  | xorVxVy (x y : Nibble)
  /-- ADD Vx,Vy, `8xy4`. -/
  | addVxVy (x y : Nibble)
  /-- SUB Vx,Vy, `8xy5`. -/
  | subVxVy (x y : Nibble)
  /-- SHR Vx, `8x06`. -/
  | shrVx (x : Nibble)
  /-- SUBN Vx,Vy, `8xy7`. -/
  | subnVxVy (x y : Nibble)
  /-- SHL Vx, `8x0E`. -/
  | shlVx (x : Nibble)
  /-- SNE Vx,Vy, `9xy0`. -/
  | sneVxVy (x y : Nibble)
  /-- LD I,nnn, `Annn`. -/
  | ldINnn (nnn : Addr12)
  /-- JP V0,nnn, `Bnnn`. -/
  | jpV0Nnn (nnn : Addr12)
  /-- RND Vx,kk, `Cxkk`. -/
  | rndVxKk (x : Nibble) (kk : Byte)
  /-- DRW Vx,Vy,n, `Dxyn`. -/
  | drwVxVyN (x y n : Nibble)
  /-- SKP Vx, `Ex9E`. -/
  | skpVx (x : Nibble)
  /-- SKNP Vx, `ExA1`. -/
  | sknpVx (x : Nibble)
  /-- LD Vx,DT, `Fx07`. -/
  | ldVxDt (x : Nibble)
  /-- LD Vx,K, `Fx0A`. -/
  | ldVxK (x : Nibble)
  /-- LD DT,Vx, `Fx15`. -/
  | ldDtVx (x : Nibble)
  /-- LD ST,Vx, `Fx18`. -/
  | ldStVx (x : Nibble)
  /-- ADD I,Vx, `Fx1E`. -/
  | addIVx (x : Nibble)
  /-- LD F,Vx, `Fx29`. -/
  | ldFVx (x : Nibble)
  /-- LD B,Vx, `Fx33`. -/
  | ldBVx (x : Nibble)
  /-- LD [I],Vx, `Fx55`. -/
  | ldMiVx (x : Nibble)
  /-- LD Vx,[I], `Fx65`. -/
  | ldVxMi (x : Nibble)
  /-- Illegal, every other word: it extracts no operand (40_dispatch_engine.md R125). -/
  | illegal
  deriving DecidableEq, Repr

end Sys2Proof
end

