-- ==== Sys2Proof/WellFormed.lean ====
section
/-! DEFINITION. What is checked before the machine is given a term. The operand fields of an
instruction need no check: their types are the fields (30_encoding.md R93). A program image is checked
here, by the two preconditions of `load` (40_dispatch_engine.md R122). -/

namespace Sys2Proof

/-- Every instruction is well formed: "register selector and address fields are always derived by
masking" (30_encoding.md R93), and the fields of `Instr` have exactly the widths of the masks. -/
def Instr.wellFormed (_ : Instr) : Bool := true

/-- The first precondition of `load`: the image has an even number of bytes (R122, `LoadOdd`). -/
def imageEven (bytes : List Byte) : Bool := bytes.length % 2 == 0

/-- The second precondition of `load`: the image fits above 0x200 (R122, `CompileRange`). -/
def imageFits (bytes : List Byte) : Bool := bytes.length ≤ Config.maxImage

/-- Both preconditions of `load` (R122). -/
def imageWellFormed (bytes : List Byte) : Bool := imageEven bytes && imageFits bytes

end Sys2Proof
end

