-- ==== Sys2Proof/Decode.lean ====
section
/-! DEFINITION. Encoding and decoding (30_encoding.md). `decode` classifies a word into one of the 35
handlers (R94); `Handler.instr` cuts the operand fields of the handler's format from a word (R93, R127);
`encode` is the canonical word of an instruction (R95, R97). The two halves of decoding stand apart
because the machine keeps them apart: the handler is chosen when a word is compiled, the operands are
cut when it runs (40_dispatch_engine.md R120, R127).
PRESUMED, unsafe: every opcode numeral is the convention's, not the source's (log 1). -/

namespace Sys2Proof

/-- The type `Handler` (R94): one value per behaviour; a handler carries no operand. -/
inductive Handler where
  | illegal | cls | ret | jpNnn | callNnn | seVxKk | sneVxKk | seVxVy | ldVxKk | addVxKk
  | ldVxVy | orVxVy | andVxVy | xorVxVy | addVxVy | subVxVy | shrVx | subnVxVy | shlVx
  | sneVxVy | ldINnn | jpV0Nnn | rndVxKk | drwVxVyN | skpVx | sknpVx | ldVxDt | ldVxK
  | ldDtVx | ldStVx | addIVx | ldFVx | ldBVx | ldMiVx | ldVxMi
  deriving DecidableEq, Repr

/-! ### Fields of the word (R91) -/

/-- `op`, bits 15:12. -/
def opField (w : Word) : Nibble := w.extractLsb' 12 4

/-- `x`, bits 11:8. -/
def xField (w : Word) : Nibble := w.extractLsb' 8 4

/-- `y`, bits 7:4. -/
def yField (w : Word) : Nibble := w.extractLsb' 4 4

/-- `n`, bits 3:0.
DEDUCED, safe: the only bits left once family, `x` and `y` are placed (the spec's D4, log 25). -/
def nField (w : Word) : Nibble := w.extractLsb' 0 4

/-- `kk`, bits 7:0. -/
def kkField (w : Word) : Byte := w.extractLsb' 0 8

/-- `nnn`, bits 11:0. -/
def nnnField (w : Word) : Addr12 := w.extractLsb' 0 12

/-! ### From a word to its handler (R94) -/

/-- Family 0x0, selected by the low byte. -/
def decodeFamily0 (kk : Byte) : Handler :=
  if kk = 0xE0 then .cls
  else if kk = 0xEE then .ret
  else .illegal

/-- Family 0x8, selected by the low nibble. -/
def decodeFamily8 (n : Nibble) : Handler :=
  if n = 0x0 then .ldVxVy
  else if n = 0x1 then .orVxVy
  else if n = 0x2 then .andVxVy
  else if n = 0x3 then .xorVxVy
  else if n = 0x4 then .addVxVy
  else if n = 0x5 then .subVxVy
  else if n = 0x6 then .shrVx
  else if n = 0x7 then .subnVxVy
  else if n = 0xE then .shlVx
  else .illegal

/-- Family 0xE, selected by the low byte. -/
def decodeFamilyE (kk : Byte) : Handler :=
  if kk = 0x9E then .skpVx
  else if kk = 0xA1 then .sknpVx
  else .illegal

/-- Family 0xF, selected by the low byte. -/
def decodeFamilyF (kk : Byte) : Handler :=
  if kk = 0x07 then .ldVxDt
  else if kk = 0x0A then .ldVxK
  else if kk = 0x15 then .ldDtVx
  else if kk = 0x18 then .ldStVx
  else if kk = 0x1E then .addIVx
  else if kk = 0x29 then .ldFVx
  else if kk = 0x33 then .ldBVx
  else if kk = 0x55 then .ldMiVx
  else if kk = 0x65 then .ldVxMi
  else .illegal

/-- `Decode` of R94 as it stands there: first the high nibble, then, for the families 0x0, 0x8, 0xE and
0xF, a secondary selector, then the fall-back. -/
def decodeMasked (w : Word) : Handler :=
  if opField w = 0x0 then decodeFamily0 (kkField w)
  else if opField w = 0x1 then .jpNnn
  else if opField w = 0x2 then .callNnn
  else if opField w = 0x3 then .seVxKk
  else if opField w = 0x4 then .sneVxKk
  else if opField w = 0x5 then .seVxVy
  else if opField w = 0x6 then .ldVxKk
  else if opField w = 0x7 then .addVxKk
  else if opField w = 0x8 then decodeFamily8 (nField w)
  else if opField w = 0x9 then .sneVxVy
  else if opField w = 0xA then .ldINnn
  else if opField w = 0xB then .jpV0Nnn
  else if opField w = 0xC then .rndVxKk
  else if opField w = 0xD then .drwVxVyN
  else if opField w = 0xE then decodeFamilyE (kkField w)
  else decodeFamilyF (kkField w)

/-- The bits of a word that no mask tests and no field uses, as a mask (R92, R97). -/
def Handler.ignoredBits : Handler → Word
  | .cls | .ret => 0x0F00
  | .seVxVy | .sneVxVy => 0x000F
  | .shrVx | .shlVx => 0x00F0
  | _ => 0x0000

/-- `Decode` (R94, R97): under ALIAS_DECODE, the spec's default, the ignored bits are not looked at; the
other setting makes every alias word ILLEGAL.
DESIGN CHOICE (the spec's D3), unsafe (log 2). -/
def decode (w : Word) : Handler :=
  if Config.aliasDecode || w &&& (decodeMasked w).ignoredBits == 0 then decodeMasked w
  else .illegal

/-! ### The opcode map as a table (R95) -/

/-- The mask and match of the handler's row of R95; ILLEGAL has no row. -/
def Handler.row : Handler → Option (Word × Word)
  | .illegal => none
  | .cls => some (0xF0FF, 0x00E0)
  | .ret => some (0xF0FF, 0x00EE)
  | .jpNnn => some (0xF000, 0x1000)
  | .callNnn => some (0xF000, 0x2000)
  | .seVxKk => some (0xF000, 0x3000)
  | .sneVxKk => some (0xF000, 0x4000)
  | .seVxVy => some (0xF000, 0x5000)
  | .ldVxKk => some (0xF000, 0x6000)
  | .addVxKk => some (0xF000, 0x7000)
  | .ldVxVy => some (0xF00F, 0x8000)
  | .orVxVy => some (0xF00F, 0x8001)
  | .andVxVy => some (0xF00F, 0x8002)
  | .xorVxVy => some (0xF00F, 0x8003)
  | .addVxVy => some (0xF00F, 0x8004)
  | .subVxVy => some (0xF00F, 0x8005)
  | .shrVx => some (0xF00F, 0x8006)
  | .subnVxVy => some (0xF00F, 0x8007)
  | .shlVx => some (0xF00F, 0x800E)
  | .sneVxVy => some (0xF000, 0x9000)
  | .ldINnn => some (0xF000, 0xA000)
  | .jpV0Nnn => some (0xF000, 0xB000)
  | .rndVxKk => some (0xF000, 0xC000)
  | .drwVxVyN => some (0xF000, 0xD000)
  | .skpVx => some (0xF0FF, 0xE09E)
  | .sknpVx => some (0xF0FF, 0xE0A1)
  | .ldVxDt => some (0xF0FF, 0xF007)
  | .ldVxK => some (0xF0FF, 0xF00A)
  | .ldDtVx => some (0xF0FF, 0xF015)
  | .ldStVx => some (0xF0FF, 0xF018)
  | .addIVx => some (0xF0FF, 0xF01E)
  | .ldFVx => some (0xF0FF, 0xF029)
  | .ldBVx => some (0xF0FF, 0xF033)
  | .ldMiVx => some (0xF0FF, 0xF055)
  | .ldVxMi => some (0xF0FF, 0xF065)

/-- "a word selects the row exactly when `w & mask = match`" (R95). -/
def Handler.selects (h : Handler) (w : Word) : Bool :=
  match h.row with
  | none => false
  | some (mask, matchBits) => w &&& mask == matchBits

/-! ### From a handler and a word to an instruction (R93, R127) -/

/-- The handler with the operand fields its format has, cut from `w`. It does not look at the bits that
select the handler: "it does not check that `Decode(w)` is itself" (R127). -/
def Handler.instr (h : Handler) (w : Word) : Instr :=
  match h with
  | .illegal => .illegal
  | .cls => .cls
  | .ret => .ret
  | .jpNnn => .jpNnn (nnnField w)
  | .callNnn => .callNnn (nnnField w)
  | .seVxKk => .seVxKk (xField w) (kkField w)
  | .sneVxKk => .sneVxKk (xField w) (kkField w)
  | .seVxVy => .seVxVy (xField w) (yField w)
  | .ldVxKk => .ldVxKk (xField w) (kkField w)
  | .addVxKk => .addVxKk (xField w) (kkField w)
  | .ldVxVy => .ldVxVy (xField w) (yField w)
  | .orVxVy => .orVxVy (xField w) (yField w)
  | .andVxVy => .andVxVy (xField w) (yField w)
  | .xorVxVy => .xorVxVy (xField w) (yField w)
  | .addVxVy => .addVxVy (xField w) (yField w)
  | .subVxVy => .subVxVy (xField w) (yField w)
  | .shrVx => .shrVx (xField w)
  | .subnVxVy => .subnVxVy (xField w) (yField w)
  | .shlVx => .shlVx (xField w)
  | .sneVxVy => .sneVxVy (xField w) (yField w)
  | .ldINnn => .ldINnn (nnnField w)
  | .jpV0Nnn => .jpV0Nnn (nnnField w)
  | .rndVxKk => .rndVxKk (xField w) (kkField w)
  | .drwVxVyN => .drwVxVyN (xField w) (yField w) (nField w)
  | .skpVx => .skpVx (xField w)
  | .sknpVx => .sknpVx (xField w)
  | .ldVxDt => .ldVxDt (xField w)
  | .ldVxK => .ldVxK (xField w)
  | .ldDtVx => .ldDtVx (xField w)
  | .ldStVx => .ldStVx (xField w)
  | .addIVx => .addIVx (xField w)
  | .ldFVx => .ldFVx (xField w)
  | .ldBVx => .ldBVx (xField w)
  | .ldMiVx => .ldMiVx (xField w)
  | .ldVxMi => .ldVxMi (xField w)

/-- The instruction a word stands for: its own handler on its own fields. -/
def decodeWord (w : Word) : Instr := (decode w).instr w

/-- Why a list of bytes gives no instruction. -/
inductive DecodeError where
  /-- Fewer than the two bytes of an instruction are left (R90). No word is rejected (R96). -/
  | truncated
  deriving DecidableEq, Repr

/-- Decoding a stream of bytes: the first two, big-endian, are the word (20_memory.md R62, R90); the rest is
handed on. -/
def decodeBytes : List Byte → Except DecodeError (Instr × List Byte)
  | hi :: lo :: rest => .ok (decodeWord (hi ++ lo), rest)
  | _ => .error .truncated

/-! ### Encoding (R92, R95) -/

/-- The handler of an instruction: its behaviour without its operands (R94). -/
def Instr.handler : Instr → Handler
  | .cls => .cls
  | .ret => .ret
  | .jpNnn _ => .jpNnn
  | .callNnn _ => .callNnn
  | .seVxKk _ _ => .seVxKk
  | .sneVxKk _ _ => .sneVxKk
  | .seVxVy _ _ => .seVxVy
  | .ldVxKk _ _ => .ldVxKk
  | .addVxKk _ _ => .addVxKk
  | .ldVxVy _ _ => .ldVxVy
  | .orVxVy _ _ => .orVxVy
  | .andVxVy _ _ => .andVxVy
  | .xorVxVy _ _ => .xorVxVy
  | .addVxVy _ _ => .addVxVy
  | .subVxVy _ _ => .subVxVy
  | .shrVx _ => .shrVx
  | .subnVxVy _ _ => .subnVxVy
  | .shlVx _ => .shlVx
  | .sneVxVy _ _ => .sneVxVy
  | .ldINnn _ => .ldINnn
  | .jpV0Nnn _ => .jpV0Nnn
  | .rndVxKk _ _ => .rndVxKk
  | .drwVxVyN _ _ _ => .drwVxVyN
  | .skpVx _ => .skpVx
  | .sknpVx _ => .sknpVx
  | .ldVxDt _ => .ldVxDt
  | .ldVxK _ => .ldVxK
  | .ldDtVx _ => .ldDtVx
  | .ldStVx _ => .ldStVx
  | .addIVx _ => .addIVx
  | .ldFVx _ => .ldFVx
  | .ldBVx _ => .ldBVx
  | .ldMiVx _ => .ldMiVx
  | .ldVxMi _ => .ldVxMi
  | .illegal => .illegal

/-- Format A: family, `nnn` (R92). -/
def formatA (op : Nibble) (nnn : Addr12) : Word := op ++ nnn

/-- Formats XK and X: family, `x`, low byte (R92). -/
def formatXK (op x : Nibble) (kk : Byte) : Word := op ++ (x ++ kk)

/-- Formats XY and XYN: family, `x`, `y`, low nibble (R92). -/
def formatXYN (op x y n : Nibble) : Word := op ++ (x ++ (y ++ n))

/-- The canonical word of an instruction: every bit that no mask tests and no field uses is 0 (R95, R97).
DESIGN CHOICE, safe: Illegal stands for 13872 words and is written 0x0000, the word that fills memory
after reset (R96, log 19). -/
def encode : Instr → Word
  | .cls => formatXK 0x0 0x0 0xE0
  | .ret => formatXK 0x0 0x0 0xEE
  | .jpNnn nnn => formatA 0x1 nnn
  | .callNnn nnn => formatA 0x2 nnn
  | .seVxKk x kk => formatXK 0x3 x kk
  | .sneVxKk x kk => formatXK 0x4 x kk
  | .seVxVy x y => formatXYN 0x5 x y 0x0
  | .ldVxKk x kk => formatXK 0x6 x kk
  | .addVxKk x kk => formatXK 0x7 x kk
  | .ldVxVy x y => formatXYN 0x8 x y 0x0
  | .orVxVy x y => formatXYN 0x8 x y 0x1
  | .andVxVy x y => formatXYN 0x8 x y 0x2
  | .xorVxVy x y => formatXYN 0x8 x y 0x3
  | .addVxVy x y => formatXYN 0x8 x y 0x4
  | .subVxVy x y => formatXYN 0x8 x y 0x5
  | .shrVx x => formatXYN 0x8 x 0x0 0x6
  | .subnVxVy x y => formatXYN 0x8 x y 0x7
  | .shlVx x => formatXYN 0x8 x 0x0 0xE
  | .sneVxVy x y => formatXYN 0x9 x y 0x0
  | .ldINnn nnn => formatA 0xA nnn
  | .jpV0Nnn nnn => formatA 0xB nnn
  | .rndVxKk x kk => formatXK 0xC x kk
  | .drwVxVyN x y n => formatXYN 0xD x y n
  | .skpVx x => formatXK 0xE x 0x9E
  | .sknpVx x => formatXK 0xE x 0xA1
  | .ldVxDt x => formatXK 0xF x 0x07
  | .ldVxK x => formatXK 0xF x 0x0A
  | .ldDtVx x => formatXK 0xF x 0x15
  | .ldStVx x => formatXK 0xF x 0x18
  | .addIVx x => formatXK 0xF x 0x1E
  | .ldFVx x => formatXK 0xF x 0x29
  | .ldBVx x => formatXK 0xF x 0x33
  | .ldMiVx x => formatXK 0xF x 0x55
  | .ldVxMi x => formatXK 0xF x 0x65
  | .illegal => 0x0000

/-- The high byte of a word, which lies at the lower address (20_memory.md R62). -/
def hiByte (w : Word) : Byte := w.extractLsb' 8 8

/-- The low byte of a word (20_memory.md R62). -/
def loByte (w : Word) : Byte := w.extractLsb' 0 8

/-- The two bytes of a word as they lie in memory, the high byte first (20_memory.md R62). -/
def wordBytes (w : Word) : List Byte := [hiByte w, loByte w]

/-- The instruction read from the table word `w` of `nbits` bits: the bits above `nbits` are 0, the word is
laid out big-endian and given to the decoder. An instruction has 16 bits (R90), so no wider row exists. -/
def decodeTableWord (nbits w : Nat) : Option Instr :=
  if nbits ≤ 16 then
    match decodeBytes (wordBytes (BitVec.ofNat 16 (w % 2 ^ nbits))) with
    | .ok (i, _) => some i
    | .error _ => none
  else none

end Sys2Proof
end

