-- ==== Sys2Proof/Machine/State.lean ====
section
/-! DEFINITION. The state of the machine as plain data: `Elements`, the fourteen elements of 10_state.md R20, and
`State`, which sets the place in the stream of random inputs beside them; why a step stops; the state after reset
(R39). -/

namespace Sys2Proof.Machine

/-- `Mem` (10_state.md R29): the cells that differ from the reset contents, addresses rising (log 21). -/
abbrev Memory := List Host.Cell

/-- `Dispatch` (R30): the entries that are not ILLEGAL, addresses rising (log 21). -/
abbrev DispatchTable := List (Nat × Handler)

/-- `Screen` (R31): 32 rows of 64 pixels, row-major. -/
abbrev Screen := Vector (Vector Bool 64) 32

/-- Why the machine stops: the Undefined conditions that "a model maps to a fault" (60_exceptions.md R251).
A fault carries no state, because "the whole instruction or operation that raises it has no defined
effect" (00_scope.md R12). -/
inductive Fault where
  /-- `Undefined(MemRange)`: a data access above 0xFFF; raised by DRW, LD B, LD [I] and LD Vx,[I]
  (20_memory.md R65, R66). Safe (log 7). -/
  | memRange
  /-- `Undefined(FetchRange)`: a step of a Running engine with `PC` above 0xFFF; raised by the fetch
  (40_dispatch_engine.md R126). Safe (log 8). -/
  | fetchRange
  /-- `Undefined(KeyRange)`: a key number above 15; raised by SKP and SKNP
  (45_keys_timers_random.md R231, R232). Safe (log 9). -/
  | keyRange
  deriving DecidableEq, Repr

/-- What the model declines: the Undefined conditions that "a model refuses" (60_exceptions.md R251), and
an instruction without a meaning. -/
inductive Refusal where
  /-- An instruction whose meaning is not written yet; raised by an arm of `exec` only. Safe. -/
  | notModelled (mnemonic : String)
  /-- `Undefined(LoadOdd)`: an image of odd length; raised by the host operation `load`
  (40_dispatch_engine.md R122). Safe (log 13). -/
  | loadOdd
  /-- `Undefined(CompileRange)`: no room below 0x1000; raised by the host operations `compile` and `load`
  (40_dispatch_engine.md R121, R122). Safe (log 13). -/
  | compileRange
  /-- `VF` as the destination of ADD, SUB, SUBN, SHR or SHL; raised by those five only under
  VF_OPERAND_POLICY = refuse, which is not the value taken (42_alu.md R172). Safe (log 10). -/
  | vfOperand
  deriving DecidableEq, Repr

/-- "The complete state of the machine is the following fourteen elements and nothing else" (10_state.md R20):
exactly these fields. -/
structure Elements where
  /-- `V[0..15]`; `V[15]` is the flag `VF` (R21, R22). -/
  v : Vector Byte 16
  /-- `PC` (R23). -/
  pc : Word
  /-- `I` (R25). -/
  i : Word
  /-- `Stack[0..15]` (R26). -/
  stack : Vector Word 16
  /-- The live bits of `SP`, value 0..15; bits 7:4 of the 8-bit register are always 0 (R26, R37, log 18). -/
  sp : Nibble
  /-- `DT` (R27). -/
  dt : Byte
  /-- `ST` (R28). -/
  st : Byte
  /-- `Mem` (R29). -/
  mem : Memory
  /-- `Dispatch` (R30). -/
  dispatch : DispatchTable
  /-- `Screen` (R31). -/
  screen : Screen
  /-- `Keys[0..15]` (R32). -/
  keys : Vector Bool 16
  /-- `LastKey` (R33); `none` is `NOKEY` (log 14). -/
  lastKey : Option Nibble
  /-- `Blocked` (R34). -/
  blocked : Bool
  /-- `WC` (R35). -/
  wc : Word
  deriving DecidableEq, Repr

/-- The machine between two steps of the host's form, which has no input: the fourteen elements, and beside them the
place in the stream of free inputs `Rnd()` (R36, R237). The machine itself is `Elements.step` in Machine/Inputs.lean, a
step over `Elements` alone with the random byte as its input.
DESIGN CHOICE, unsafe only for a claim that compares two runs of `step` (log 15). -/
structure State extends Elements where
  /-- How many random bytes were drawn so far; no element of the machine. -/
  draws : Nat
  deriving DecidableEq, Repr

/-- A screen with every pixel the same. -/
def Screen.filled (b : Bool) : Screen := Vector.replicate 32 (Vector.replicate 64 b)

/-- A screen with every pixel clear (R211). -/
def Screen.blank : Screen := Screen.filled false

/-- The fourteen elements after reset (10_state.md R39, 70_reset_and_hazards.md R290). `PC` and the ILLEGAL dispatch
entries are the source's, NOKEY and Running are derived from its tests; nothing is listed in `mem`, which then reads as
the font and the reset fill.
DESIGN CHOICE (the spec's D7, D23), unsafe: RESET_FILL and `WC` = 0x200 (log 5). -/
def Elements.reset : Elements where
  v := Vector.replicate 16 (Config.fill 8)
  pc := 0x0200
  i := Config.fill 16
  stack := Vector.replicate 16 (Config.fill 16)
  sp := Config.fill 4
  dt := Config.fill 8
  st := Config.fill 8
  mem := []
  dispatch := []
  screen := Screen.filled Config.fillBit
  keys := Vector.replicate 16 Config.fillBit
  lastKey := Config.noKey
  blocked := false
  wc := 0x0200

/-- The state after reset: the elements as the spec says, and the stream of random inputs at its start.
DESIGN CHOICE, safe: `draws` = 0; no statement rests on it (log 15). -/
def State.reset : State := { toElements := Elements.reset, draws := 0 }

end Sys2Proof.Machine
end

