-- ==== Sys2Proof/Machine/Ops.lean ====
section
/-! DEFINITION. The named operations over memory, the dispatch table, the registers, the stack, the screen
and the program counter that every meaning goes through (00_scope.md R11, 20_memory.md R66). The machine
takes no exception (60_exceptions.md R250, R257), so there is no operation for entering or leaving one. -/

namespace Sys2Proof.Machine

/-! ### Sparse tables: what `Mem` and `Dispatch` are made of

A table lists the entries that differ from `dflt`, keys strictly rising, so equal tables are equal data. -/

/-- The entry at `a`. -/
def Sparse.get {α : Type} (dflt : Nat → α) : List (Nat × α) → Nat → α
  | [], a => dflt a
  | (k, w) :: m, a => if k = a then w else Sparse.get dflt m a

/-- An entry at the head of a table, left out when it says what an unlisted key reads as. -/
def Sparse.cons {α : Type} [DecidableEq α] (dflt : Nat → α) (a : Nat) (w : α) (m : List (Nat × α)) :
    List (Nat × α) :=
  if w = dflt a then m else (a, w) :: m

/-- The table with the entry at `a` set to `w`. -/
def Sparse.set {α : Type} [DecidableEq α] (dflt : Nat → α) : List (Nat × α) → Nat → α → List (Nat × α)
  | [], a, w => Sparse.cons dflt a w []
  | (k, u) :: m, a, w =>
    if a < k then Sparse.cons dflt a w ((k, u) :: m)
    else if a = k then Sparse.cons dflt a w m
    else (k, u) :: Sparse.set dflt m a w

/-- The canonical form: keys strictly rising and below `bound`, no entry equal to the default. -/
abbrev Sparse.wf {α : Type} [DecidableEq α] (dflt : Nat → α) (bound : Nat) (m : List (Nat × α)) : Prop :=
  (m.map Prod.fst).Pairwise (· < ·) ∧ ∀ e ∈ m, e.1 < bound ∧ e.2 ≠ dflt e.1

/-! ### Memory (20_memory.md) -/

/-- What an address that is not listed reads as: the reset contents, the font at 0x000 to 0x04F and the
reset fill elsewhere (10_state.md R39, log 21). -/
def Memory.default (a : Nat) : Byte := Config.font.getD a (Config.fill 8)

/-- The byte at `a` (R66); the range test is `memRead`'s. -/
def Memory.read (m : Memory) (a : Nat) : Byte := Sparse.get Memory.default m a

/-- Memory with the byte at `a` set to `b`, in canonical form; the range test is `memWrite`'s. -/
def Memory.write (m : Memory) (a : Nat) (b : Byte) : Memory := Sparse.set Memory.default m a b

/-- The canonical form of memory; every listed address exists. -/
abbrev Memory.wf (m : Memory) : Prop := Sparse.wf Memory.default Config.memSize m

/-- `MemRead(addr, 1)` (20_memory.md R66). The address is a natural number: it never wraps (R65). -/
def memRead (s : State) (a : Nat) : Except Fault Byte :=
  if a ≤ 0xFFF then .ok (s.mem.read a) else .error .memRange

/-- `MemWrite(addr, 1, v)` (R66). It does not touch `Dispatch` (R71). -/
def memWrite (s : State) (a : Nat) (b : Byte) : Except Fault State :=
  if a ≤ 0xFFF then .ok { s with mem := s.mem.write a b } else .error .memRange

/-- `n` bytes from `a` upward, one `MemRead` each (R63). -/
def memReadBlock (s : State) (a : Nat) : Nat → Except Fault (List Byte)
  | 0 => .ok []
  | n + 1 =>
    match memRead s a with
    | .error f => .error f
    | .ok b =>
      match memReadBlock s (a + 1) n with
      | .error f => .error f
      | .ok bs => .ok (b :: bs)

/-- The bytes written from `a` upward, one `MemWrite` each (R63). A fault drops the whole block: "a model
must not keep the stores that precede the offending one" (R65). -/
def memWriteBlock (s : State) (a : Nat) : List Byte → Except Fault State
  | [] => .ok s
  | b :: bs =>
    match memWrite s a b with
    | .error f => .error f
    | .ok s' => memWriteBlock s' (a + 1) bs

/-- `Fetch16(addr)`, big-endian (00_scope.md R11, 20_memory.md R62, R66). -/
def fetch16 (s : State) (a : Nat) : Except Fault Word :=
  match memRead s a with
  | .error f => .error f
  | .ok hi =>
    match memRead s (a + 1) with
    | .error f => .error f
    | .ok lo => .ok (hi ++ lo)

/-! ### The dispatch table (10_state.md R30) -/

/-- An entry that was never compiled is ILLEGAL (R30, R39). -/
def DispatchTable.default (_ : Nat) : Handler := .illegal

/-- `Dispatch[a]`. -/
def DispatchTable.handler (d : DispatchTable) (a : Nat) : Handler := Sparse.get DispatchTable.default d a

/-- The table with `Dispatch[a]` set to `h`; only the host's `compile` does this (R30, R71). -/
def DispatchTable.set (d : DispatchTable) (a : Nat) (h : Handler) : DispatchTable :=
  Sparse.set DispatchTable.default d a h

/-- The canonical form of the dispatch table; every listed address exists. -/
abbrev DispatchTable.wf (d : DispatchTable) : Prop :=
  Sparse.wf DispatchTable.default Config.memSize d

/-! ### General registers (10_state.md R21) -/

/-- The selector of `VF` (R22). -/
abbrev vf : Nibble := 0xF

/-- `V[r]`. -/
def State.reg (s : State) (r : Nibble) : Byte := s.v[r.toNat]

/-- `V[r] <- b`. -/
def State.setReg (s : State) (r : Nibble) (b : Byte) : State := { s with v := s.v.set r.toNat b }

/-- `V[r], V[r+1], ... <- bs`, ascending; a register past `V[15]` does not exist and nothing is written. -/
def State.setRegs (s : State) (r : Nat) : List Byte → State
  | [] => s
  | b :: bs => State.setRegs { s with v := s.v.setIfInBounds r b } (r + 1) bs

/-- `V[0], ..., V[n-1]`. -/
def State.regsUpTo (s : State) (n : Nat) : List Byte := s.v.toList.take n

/-- The 8-bit register `SP` as the host reads it: bits 7:4 are 0 (10_state.md R26, R37, R40). -/
def State.spReg (s : State) : Byte := s.sp.zext8

/-! ### The call stack (10_state.md R26) -/

/-- `Push(v)`: `Stack[SP] <- v; SP <- (SP + 1) mod 16`. -/
def State.push (s : State) (w : Word) : State :=
  { s with stack := s.stack.set s.sp.toNat w, sp := s.sp + 1 }

/-- `Stack[(SP - 1) mod 16]`, the value `Pop()` returns. -/
def State.top (s : State) : Word := s.stack[(s.sp - 1).toNat]

/-- What `Pop()` leaves: `SP <- (SP - 1) mod 16`; the entry keeps its value. -/
def State.drop (s : State) : State := { s with sp := s.sp - 1 }

/-! ### The program counter (10_state.md R24) -/

/-- `PC <- PC + 2`, modulo 2^16.
DEDUCED, safe: the wrap (the spec's D20) is reached by no step, since a step faults above 0xFFF (log 17). -/
def State.advance (s : State) : State := { s with pc := s.pc + 2 }

/-- `PC + 4` if the condition holds, else `PC + 2` (R24). -/
def State.skipIf (s : State) (c : Bool) : State := { s with pc := s.pc + (if c then 4 else 2) }

/-- `PC <- target`. -/
def State.jump (s : State) (target : Word) : State := { s with pc := target }

/-! ### The screen (10_state.md R31, 44_draw.md R210) -/

/-- `Screen[py mod 32][px mod 64]`: "coordinates entering a draw always wrap" (R210). -/
def Screen.pixel (scr : Screen) (px py : Nat) : Bool := scr[py % 32][px % 64]

/-- The screen with that pixel inverted. -/
def Screen.toggle (scr : Screen) (px py : Nat) : Screen :=
  scr.set (py % 32) (scr[py % 32].set (px % 64) (!scr.pixel px py))

/-! ### Keys (10_state.md R32) -/

/-- `Keys[k]`. -/
def State.key (s : State) (k : Nibble) : Bool := s.keys[k.toNat]

/-- `Keys[k] <- b`; only the host's key operations do this (R32). -/
def State.setKey (s : State) (k : Nibble) (b : Bool) : State := { s with keys := s.keys.set k.toNat b }

/-! ### Outcomes -/

/-- A computation that may raise Undefined, as the outcome of a step (00_scope.md R12). -/
def outcomeOf (r : Except Fault State) : Host.Outcome State Fault Refusal :=
  match r with
  | .ok s => .next s
  | .error f => .fault f

end Sys2Proof.Machine
end

