-- ==== Sys2Proof/Machine/Operands.lean ====
section
/-! DEFINITION. The operand forms: effective addresses, jump targets, glyph addresses, decimal digits, sprite
bits and the key number of a register. -/

namespace Sys2Proof.Machine

/-- The one data addressing mode, `I + k`, an unbounded sum (43_index_memory.md R196, 20_memory.md R65).
DEDUCED, safe: it never wraps (the spec's D9, log 7). -/
def effAddr (s : State) (k : Nat) : Nat := s.i.toNat + k

/-- The return address of CALL, `(PC + 2) mod 65536` (41_control.md R142). -/
def returnAddr (s : State) : Word := s.pc + 2

/-- The target of JP V0,nnn: `nnn + V[0]`, not reduced modulo 4096 (41_control.md R144). -/
def jumpV0Target (s : State) (nnn : Addr12) : Word := nnn.zext16 + (s.reg 0).zext16

/-- The glyph address of LD F,Vx: the full product `V[x] * 5` (43_index_memory.md R192).
DEDUCED, unsafe: no mask to the low nibble (the spec's D28, log 24). -/
def glyphAddr (b : Byte) : Word := b.zext16 * 5

/-- The digits of LD B,Vx: hundreds, tens, ones (43_index_memory.md R193). -/
def bcdDigits (a : Byte) : List Byte :=
  [BitVec.ofNat 8 (a.toNat / 100), BitVec.ofNat 8 (a.toNat / 10 % 10), BitVec.ofNat 8 (a.toNat % 10)]

/-- The bit of a sprite row that stands in column `col` (44_draw.md R210).
PRESUMED, unsafe: bit 7 is column 0 (SPRITE_MSB_LEFT, log 4). -/
def spriteBit (b : Byte) (col : Nat) : Bool :=
  if Config.spriteMsbLeft then b.getLsbD (7 - col) else b.getLsbD col

/-- The key a register numbers: keys are 0x0 to 0xF, any other number is Undefined(KeyRange)
(45_keys_timers_random.md R231). Safe (log 9). -/
def keyOperand (b : Byte) : Except Fault Nibble :=
  if b.toNat ≤ 15 then .ok (BitVec.ofNat 4 b.toNat) else .error .keyRange

end Sys2Proof.Machine
end

