-- ==== Sys2Proof/Machine/Flags.lean ====
section
/-! DEFINITION. The flag computations (10_state.md R22): a flag is the 8-bit value 0x00 or 0x01, written to
`V[15]`; and the two orders in which an instruction writes its flag and its result (42_alu.md R172). -/

namespace Sys2Proof.Machine

/-- "a flag write stores the 8-bit value 0x00 or 0x01" (R22). -/
def flagByte (c : Bool) : Byte := if c then 0x01 else 0x00

/-- ADD: the 9-bit sum exceeds 255 (42_alu.md R166). -/
def carryFlag (a b : Byte) : Byte := flagByte (255 < a.toNat + b.toNat)

/-- SUB and SUBN: the minuend is strictly greater than the subtrahend (R167, R169). -/
def noBorrowFlag (minuend subtrahend : Byte) : Byte := flagByte (subtrahend.toNat < minuend.toNat)

/-- SHR: the least significant bit before the shift (R168). -/
def shrFlag (a : Byte) : Byte := flagByte (a.getLsbD 0)

/-- SHL: the most significant bit before the shift (R170). -/
def shlFlag (a : Byte) : Byte := flagByte (a.getLsbD 7)

/-- The order of ADD under VF_OPERAND_POLICY = literal: result, then flag, so that for `x = 15`
the flag prevails (R166, R172).
DESIGN CHOICE (the spec's D12), unsafe (log 10). -/
def State.setResultThenFlag (s : State) (x : Nibble) (result flag : Byte) : State :=
  (s.setReg x result).setReg vf flag

/-- The order of SUB, SUBN, SHR and SHL under VF_OPERAND_POLICY = literal: flag, then result, so that for
`x = 15` the result prevails (R167 to R170, R172).
DESIGN CHOICE (the spec's D12), unsafe (log 10). -/
def State.setFlagThenResult (s : State) (x : Nibble) (result flag : Byte) : State :=
  (s.setReg vf flag).setReg x result

/-- The end of a flag-writing instruction with the destination `x`: `PC + 2` (42_alu.md R173). Under
VF_OPERAND_POLICY = refuse the form with `x = 15` is refused instead (R172).
DESIGN CHOICE (the spec's D12), unsafe: the policy is literal, so the form runs (log 10). -/
def finishFlagged (x : Nibble) (s : State) : Host.Outcome State Fault Refusal :=
  match Config.vfOperandPolicy with
  | .literal => .next s.advance
  | .refuse => if x = vf then .refused .vfOperand else .next s.advance

end Sys2Proof.Machine
end

