-- ==== Sys2Proof/Machine/Alu.lean ====
section
/-! DEFINITION. Register loads and the 8-bit ALU (42_alu.md). Every operand is read before anything is written
(R172), and every instruction advances `PC` by 2 (R173). -/

namespace Sys2Proof.Machine

/-- LD Vx,kk (R160). -/
def execLdVxKk (x : Nibble) (kk : Byte) (s : State) : Host.Outcome State Fault Refusal :=
  .next (s.setReg x kk).advance

/-- ADD Vx,kk (R161): modulo 256, no flag effect. -/
def execAddVxKk (x : Nibble) (kk : Byte) (s : State) : Host.Outcome State Fault Refusal :=
  .next (s.setReg x (s.reg x + kk)).advance

/-- LD Vx,Vy (R162). -/
def execLdVxVy (x y : Nibble) (s : State) : Host.Outcome State Fault Refusal :=
  .next (s.setReg x (s.reg y)).advance

/-- OR Vx,Vy (R163): no flag effect. -/
def execOrVxVy (x y : Nibble) (s : State) : Host.Outcome State Fault Refusal :=
  .next (s.setReg x (s.reg x ||| s.reg y)).advance

/-- AND Vx,Vy (R164): no flag effect. -/
def execAndVxVy (x y : Nibble) (s : State) : Host.Outcome State Fault Refusal :=
  .next (s.setReg x (s.reg x &&& s.reg y)).advance

/-- XOR Vx,Vy (R165): no flag effect. -/
def execXorVxVy (x y : Nibble) (s : State) : Host.Outcome State Fault Refusal :=
  .next (s.setReg x (s.reg x ^^^ s.reg y)).advance

/-- ADD Vx,Vy (R166): the result, then the carry. -/
def execAddVxVy (x y : Nibble) (s : State) : Host.Outcome State Fault Refusal :=
  finishFlagged x (s.setResultThenFlag x (s.reg x + s.reg y) (carryFlag (s.reg x) (s.reg y)))

/-- SUB Vx,Vy (R167): the strict no-borrow flag, then the difference. -/
def execSubVxVy (x y : Nibble) (s : State) : Host.Outcome State Fault Refusal :=
  finishFlagged x (s.setFlagThenResult x (s.reg x - s.reg y) (noBorrowFlag (s.reg x) (s.reg y)))

/-- SHR Vx (R168): the bit shifted out, then the shifted value. -/
def execShrVx (x : Nibble) (s : State) : Host.Outcome State Fault Refusal :=
  finishFlagged x (s.setFlagThenResult x (s.reg x >>> 1) (shrFlag (s.reg x)))

/-- SUBN Vx,Vy (R169): the minuend is `V[y]`. -/
def execSubnVxVy (x y : Nibble) (s : State) : Host.Outcome State Fault Refusal :=
  finishFlagged x (s.setFlagThenResult x (s.reg y - s.reg x) (noBorrowFlag (s.reg y) (s.reg x)))

/-- SHL Vx (R170): the bit shifted out, then the shifted value modulo 256. -/
def execShlVx (x : Nibble) (s : State) : Host.Outcome State Fault Refusal :=
  finishFlagged x (s.setFlagThenResult x (s.reg x <<< 1) (shlFlag (s.reg x)))

end Sys2Proof.Machine
end

