-- ==== Sys2Proof/Machine/Control.lean ====
section
/-! DEFINITION. Control transfer (41_control.md): JP, CALL, RET, JP V0, SE, SNE. None has a flag effect and none
raises Undefined itself (R140). -/

namespace Sys2Proof.Machine

/-- JP nnn (R141): `PC <- nnn`. -/
def execJpNnn (nnn : Addr12) (s : State) : Host.Outcome State Fault Refusal := .next (s.jump nnn.zext16)

/-- CALL nnn (R142): `Push(PC + 2); PC <- nnn`. -/
def execCallNnn (nnn : Addr12) (s : State) : Host.Outcome State Fault Refusal :=
  .next ((s.push (returnAddr s)).jump nnn.zext16)

/-- RET (R143): `PC <- Pop()`. -/
def execRet (s : State) : Host.Outcome State Fault Refusal := .next (s.drop.jump s.top)

/-- JP V0,nnn (R144): `PC <- nnn + V[0]`. -/
def execJpV0Nnn (nnn : Addr12) (s : State) : Host.Outcome State Fault Refusal :=
  .next (s.jump (jumpV0Target s nnn))

/-- SE Vx,kk (R145). -/
def execSeVxKk (x : Nibble) (kk : Byte) (s : State) : Host.Outcome State Fault Refusal :=
  .next (s.skipIf (s.reg x == kk))

/-- SNE Vx,kk (R146). -/
def execSneVxKk (x : Nibble) (kk : Byte) (s : State) : Host.Outcome State Fault Refusal :=
  .next (s.skipIf (s.reg x != kk))

/-- SE Vx,Vy (R147). -/
def execSeVxVy (x y : Nibble) (s : State) : Host.Outcome State Fault Refusal :=
  .next (s.skipIf (s.reg x == s.reg y))

/-- SNE Vx,Vy (R148). -/
def execSneVxVy (x y : Nibble) (s : State) : Host.Outcome State Fault Refusal :=
  .next (s.skipIf (s.reg x != s.reg y))

end Sys2Proof.Machine
end

