-- ==== Sys2Proof/Machine/Draw.lean ====
section
/-! DEFINITION. Screen clear and the sprite-draw engine (44_draw.md). -/

namespace Sys2Proof.Machine

/-- CLS (R211): every pixel 0, `VF` not written. -/
def execCls (s : State) : Host.Outcome State Fault Refusal := .next { s with screen := Screen.blank }.advance

/-- One sprite bit at `(px, py)` (R212): a set bit inverts its pixel and hits when the pixel was set; a clear
bit does nothing. The pair is the screen and `hit`. -/
def drawBit (bit : Bool) (px py : Nat) (c : Screen × Bool) : Screen × Bool :=
  if bit then (c.1.toggle px py, c.2 || c.1.pixel px py) else c

/-- One sprite row at `(x0, py)`: columns 0 to 7 (R212). -/
def drawRow (b : Byte) (x0 py : Nat) (c : Screen × Bool) : Screen × Bool :=
  (List.range 8).foldl (fun c col => drawBit (spriteBit b col) (x0 + col) py c) c

/-- The sprite rows from `(x0, py)` downward (R212). -/
def drawRows (x0 : Nat) : Nat → List Byte → Screen × Bool → Screen × Bool
  | _, [], c => c
  | py, b :: bs, c => drawRows x0 (py + 1) bs (drawRow b x0 py c)

/-- The screen and `hit` after the sprite is drawn at the latched coordinates. -/
def drawSprite (s : State) (x y : Nibble) (rows : List Byte) : Screen × Bool :=
  drawRows (s.reg x).toNat (s.reg y).toNat rows (s.screen, false)

/-- The state after the sprite is drawn: the screen, then `VF <- hit` (R212). -/
def drawState (s : State) (x y : Nibble) (rows : List Byte) : State :=
  { s with screen := (drawSprite s x y rows).1 }.setReg vf (flagByte (drawSprite s x y rows).2)

/-- DRW Vx,Vy,n as a computation: the rows are `n` bytes from `I`; no row is read when `n = 0` (R212).
DEDUCED, unsafe: `n = 0` draws nothing (the spec's D22, log 23). -/
def drawBlock (x y n : Nibble) (s : State) : Except Fault State :=
  match memReadBlock s (effAddr s 0) n.toNat with
  | .error f => .error f
  | .ok rows => .ok (drawState s x y rows).advance

/-- DRW Vx,Vy,n (R212). -/
def execDrwVxVyN (x y n : Nibble) (s : State) : Host.Outcome State Fault Refusal :=
  outcomeOf (drawBlock x y n s)

end Sys2Proof.Machine
end

