-- ==== Sys2Proof/Machine/Engine.lean ====
section
/-! DEFINITION. The Illegal handler and the fetch of an instruction (40_dispatch_engine.md). -/

namespace Sys2Proof.Machine

/-- ILLEGAL (R125): a no-op that advances `PC` by 2. -/
def execIllegal (s : State) : Host.Outcome State Fault Refusal := .next s.advance

/-- The instruction at `PC`: the handler is `Dispatch[PC]` and never the decoding of the bytes there (R120,
20_memory.md R71); its operands are cut from `Mem[PC] ++ Mem[PC+1]` as they are now (R127). ILLEGAL extracts no
operand (R125). Undefined(FetchRange) above 0xFFF (R126). -/
def fetchInstr (s : State) : Except Fault Instr :=
  if 0xFFF < s.pc.toNat then .error .fetchRange
  else if s.dispatch.handler s.pc.toNat = .illegal then .ok .illegal
  else
    match fetch16 s s.pc.toNat with
    | .error f => .error f
    | .ok w => .ok ((s.dispatch.handler s.pc.toNat).instr w)

/-- What the next step does, in the order of 60_exceptions.md R256: while Blocked nothing (`none`), else the
instruction at `PC`. -/
def fetchNext (s : State) : Except Fault (Option Instr) :=
  if s.blocked then .ok none
  else
    match fetchInstr s with
    | .error f => .error f
    | .ok i => .ok (some i)

/-- Where the next step fetches from: `PC`, or 0x200 where no whole word fits at `PC`. -/
def fetchSlot (s : State) : Nat := if s.pc.toNat < 0xFFF then s.pc.toNat else Config.programBase

/-- `s` with the word compiled at the slot: its two bytes in `Mem`, its handler in `Dispatch`, as `compile`
leaves them (R121), the engine Running and `PC` at the slot. -/
def placeWord (s : State) (w : Word) : State :=
  { s with
    mem := (s.mem.write (fetchSlot s) (hiByte w)).write (fetchSlot s + 1) (loByte w)
    dispatch := s.dispatch.set (fetchSlot s) (decode w)
    blocked := false
    pc := BitVec.ofNat 16 (fetchSlot s) }

end Sys2Proof.Machine
end

