-- ==== Sys2Proof/Machine/IndexMemory.lean ====
section
/-! DEFINITION. The address register, loads and stores (43_index_memory.md). The four instructions that go
through `I` leave it as it was (R196).
DEDUCED, unsafe: the source lists no write to `I` (the spec's D13, log 11). -/

namespace Sys2Proof.Machine

/-- LD I,nnn (R190). -/
def execLdINnn (nnn : Addr12) (s : State) : Host.Outcome State Fault Refusal :=
  .next { s with i := nnn.zext16 }.advance

/-- ADD I,Vx (R191): modulo 65536, no flag. -/
def execAddIVx (x : Nibble) (s : State) : Host.Outcome State Fault Refusal :=
  .next { s with i := s.i + (s.reg x).zext16 }.advance

/-- LD F,Vx (R192). -/
def execLdFVx (x : Nibble) (s : State) : Host.Outcome State Fault Refusal :=
  .next { s with i := glyphAddr (s.reg x) }.advance

/-- A store of a block at `I`, then `PC + 2`: LD B and LD [I]. -/
def storeBlock (bytes : List Byte) (s : State) : Except Fault State :=
  match memWriteBlock s (effAddr s 0) bytes with
  | .error f => .error f
  | .ok s' => .ok s'.advance

/-- LD B,Vx (R193). -/
def execLdBVx (x : Nibble) (s : State) : Host.Outcome State Fault Refusal :=
  outcomeOf (storeBlock (bcdDigits (s.reg x)) s)

/-- LD [I],Vx (R194): `V[0..x]`, `V[0]` at the lowest address. -/
def execLdMiVx (x : Nibble) (s : State) : Host.Outcome State Fault Refusal :=
  outcomeOf (storeBlock (s.regsUpTo (x.toNat + 1)) s)

/-- A load of `V[0..n-1]` from `I` upward, then `PC + 2`: LD Vx,[I]. No byte read comes from a register, so
reading the whole block first is the loop of R195. -/
def loadBlock (n : Nat) (s : State) : Except Fault State :=
  match memReadBlock s (effAddr s 0) n with
  | .error f => .error f
  | .ok bytes => .ok (s.setRegs 0 bytes).advance

/-- LD Vx,[I] (R195). -/
def execLdVxMi (x : Nibble) (s : State) : Host.Outcome State Fault Refusal :=
  outcomeOf (loadBlock (x.toNat + 1) s)

end Sys2Proof.Machine
end

