-- ==== Sys2Proof/Machine/KeysTimersRandom.lean ====
section
/-! DEFINITION. Key skips, key wait, timer access, random (45_keys_timers_random.md). -/

namespace Sys2Proof.Machine

/-- A skip on the state of the key that `V[x]` numbers: SKP wants it pressed, SKNP released. -/
def keySkip (x : Nibble) (wanted : Bool) (s : State) : Except Fault State :=
  match keyOperand (s.reg x) with
  | .error f => .error f
  | .ok k => .ok (s.skipIf (s.key k == wanted))

/-- SKP Vx (R231). -/
def execSkpVx (x : Nibble) (s : State) : Host.Outcome State Fault Refusal := outcomeOf (keySkip x true s)

/-- SKNP Vx (R232). -/
def execSknpVx (x : Nibble) (s : State) : Host.Outcome State Fault Refusal := outcomeOf (keySkip x false s)

/-- LD Vx,K (R233): with no key recorded the engine becomes Blocked and nothing else changes; else the key is
consumed. It looks at `LastKey` only. -/
def execLdVxK (x : Nibble) (s : State) : Host.Outcome State Fault Refusal :=
  match s.lastKey with
  | none => .next { s with blocked := true }
  | some k => .next { (s.setReg x k.zext8) with lastKey := Config.noKey, blocked := false }.advance

/-- LD Vx,DT (R234). -/
def execLdVxDt (x : Nibble) (s : State) : Host.Outcome State Fault Refusal :=
  .next (s.setReg x s.dt).advance

/-- LD DT,Vx (R235). -/
def execLdDtVx (x : Nibble) (s : State) : Host.Outcome State Fault Refusal :=
  .next { s with dt := s.reg x }.advance

/-- LD ST,Vx (R236). -/
def execLdStVx (x : Nibble) (s : State) : Host.Outcome State Fault Refusal :=
  .next { s with st := s.reg x }.advance

/-- The byte the next RND draws: a free value (R237, log 15). -/
def nextRandom (s : State) : Byte := Config.rnd s.draws

/-- RND Vx,kk when `r` is the byte of `Rnd()` (R237): `V[x] <- r & kk`, `PC + 2`. -/
def drawInto (r : Byte) (x : Nibble) (kk : Byte) (s : State) : State := (s.setReg x (r &&& kk)).advance

/-- RND Vx,kk (R237), on the next byte of the stream, which is used up. -/
def execRndVxKk (x : Nibble) (kk : Byte) (s : State) : Host.Outcome State Fault Refusal :=
  .next { (drawInto (nextRandom s) x kk s) with draws := s.draws + 1 }

end Sys2Proof.Machine
end

