-- ==== Sys2Proof/Machine/Step.lean ====
section
/-! DEFINITION. One step of the engine: the body of the loop of `step(n)` (40_dispatch_engine.md R123), the unit of
execution of the model (log 16). -/

namespace Sys2Proof.Machine

/-- One iteration of `step`: a Blocked engine executes nothing; a Running one executes the handler at `PC`, or
raises Undefined(FetchRange) (R123, R126, 60_exceptions.md R256). -/
def step (s : State) : Host.Outcome State Fault Refusal :=
  match fetchNext s with
  | .error f => .fault f
  | .ok none => .next s
  | .ok (some i) => exec i s

/-- `s` with the table word `w` of `nbits` bits as the instruction the very next step runs: compiled where the
step fetches, as the host's `compile` leaves a word (R121), the engine Running (log 20). -/
def State.withFetchWord (s : State) (nbits w : Nat) : State :=
  placeWord s (BitVec.ofNat 16 (w % 2 ^ nbits))

end Sys2Proof.Machine
end

