-- ==== Sys2Proof/Machine/HostOps.lean ====
section
/-! DEFINITION. The operations of the host (00_scope.md R9), each one atomic event between instructions
(60_exceptions.md R256). `step(n)` is built from the one-instruction step. -/

namespace Sys2Proof.Machine

/-- `reset()` (70_reset_and_hazards.md R290): every state element of the spec to its reset value. The model's draw
counter goes on, so that "reseed the random source" lets no proof relate the draws after a reset to those
before it (10_state.md R36, log 15). -/
def State.hostReset (s : State) : State := { State.reset with draws := s.draws }

/-- `compile(opcode)` (40_dispatch_engine.md R121): the two bytes and the handler at `WC`, then `WC + 2`.
`Dispatch[WC + 1]` is not written (the spec's D24, log 26). -/
def compile (w : Word) (s : State) : Host.Outcome State Fault Refusal :=
  if 0xFFE < s.wc.toNat then .refused .compileRange
  else .next { s with
    mem := (s.mem.write s.wc.toNat (hiByte w)).write (s.wc.toNat + 1) (loByte w)
    dispatch := s.dispatch.set s.wc.toNat (decode w)
    wc := s.wc + 2 }

/-- `compile` on each successive 2-byte pair, big-endian (R122). A last byte without a partner is the odd image
that `load` refuses before it comes here. -/
def compilePairs : List Byte → State → Host.Outcome State Fault Refusal
  | hi :: lo :: rest, s =>
    match compile (hi ++ lo) s with
    | .next s' => compilePairs rest s'
    | .fault f => .fault f
    | .refused r => .refused r
  | [], s => .next s
  | [_], _ => .refused .loadOdd

/-- `load(bytes)` (R122): the two preconditions, then `reset`, `WC <- 0x200`, and every pair compiled.
DEDUCED, safe: an image that breaks a precondition is refused whole (the spec's D15, log 13). -/
def load (bytes : List Byte) (s : State) : Host.Outcome State Fault Refusal :=
  if imageEven bytes = false then .refused .loadOdd
  else if imageFits bytes = false then .refused .compileRange
  else compilePairs bytes { s.hostReset with wc := 0x0200 }

/-- `step(n)` (R123): up to `n` instructions, stopping "the instant the engine becomes Blocked". -/
def stepN : Nat → State → Host.Outcome State Fault Refusal
  | 0, s => .next s
  | n + 1, s =>
    if s.blocked then .next s
    else
      match step s with
      | .next s' => stepN n s'
      | .fault f => .fault f
      | .refused r => .refused r

/-- A countdown that stops at 0 (60_exceptions.md R253). -/
def countDown (t : Byte) : Byte := if 0 < t.toNat then t - 1 else t

/-- `tick()` (R253). `ST` follows `DT` only under ST_TICK, which the spec takes as false (log 6). -/
def State.tick (s : State) : State :=
  { s with dt := countDown s.dt, st := if Config.stTick then countDown s.st else s.st }

/-- `key_pressed(key)` (R254); `none` is NOKEY, which is ignored. -/
def State.keyPressed (key : Option Nibble) (s : State) : State :=
  match key with
  | none => s
  | some k => { (s.setKey k true) with lastKey := some k, blocked := false }

/-- `key_released(key)` (R255); `none` is NOKEY, which is ignored. -/
def State.keyReleased (key : Option Nibble) (s : State) : State :=
  match key with
  | none => s
  | some k => s.setKey k false

/-- The events of the interface (00_scope.md R9). Observing changes nothing and is no event (10_state.md R40). -/
inductive HostOp where
  /-- `reset()` (R290). -/
  | reset
  /-- `load(bytes)` (R122). -/
  | load (bytes : List Byte)
  /-- `compile(opcode)` (R121). -/
  | compile (w : Word)
  /-- `step(n)` (R123). -/
  | step (n : Nat)
  /-- `tick()` (R253). -/
  | tick
  /-- `key_pressed(key)` (R254). -/
  | keyPressed (key : Option Nibble)
  /-- `key_released(key)` (R255). -/
  | keyReleased (key : Option Nibble)
  deriving DecidableEq, Repr

/-- One event. Every operation is allowed in either engine state (40_dispatch_engine.md R124, the spec's D26). -/
def hostExec (op : HostOp) (s : State) : Host.Outcome State Fault Refusal :=
  match op with
  | .reset => .next s.hostReset
  | .load bytes => Sys2Proof.Machine.load bytes s
  | .compile w => Sys2Proof.Machine.compile w s
  | .step n => stepN n s
  | .tick => .next s.tick
  | .keyPressed key => .next (s.keyPressed key)
  | .keyReleased key => .next (s.keyReleased key)

/-- A history of events, one after another: "every run is a sequence of atomic events" (the spec's D27); it stops at
the first Undefined. -/
def hostRun : List HostOp → State → Host.Outcome State Fault Refusal
  | [], s => .next s
  | op :: ops, s =>
    match hostExec op s with
    | .next s' => hostRun ops s'
    | .fault f => .fault f
    | .refused r => .refused r

end Sys2Proof.Machine
end

