-- ==== Sys2Proof/Machine/Inputs.lean ====
section
/-! DEFINITION. The machine of 10_state.md R20 as the spec has it, whole: instruction, step, reset, every operation of
the host and every history of them over exactly the fourteen elements, with the random bytes as inputs (R36,
45_keys_timers_random.md R237). The fixed form of the core's step has no input, so `step` works on `State`, which names
the inputs to come by a counter; `CoreIsTheMachineWithInputs` and `HostIsTheMachineWithInputs` state that the core and
its host operations are this machine. -/

namespace Sys2Proof.Machine

/-- The elements as a state. Nothing that is done with it here looks at the counter. -/
def Elements.asState (e : Elements) : State := { toElements := e, draws := 0 }

/-- An outcome without the counter. -/
def elementsOf (o : Host.Outcome State Fault Refusal) : Host.Outcome Elements Fault Refusal :=
  match o with
  | .next t => .next t.toElements
  | .fault f => .fault f
  | .refused r => .refused r

/-- The instruction `i` on the fourteen elements, when `r` is the byte of `Rnd()`. RND takes it (R237); no other
instruction has an input, and its meaning is that of `exec`. -/
def Elements.exec (r : Byte) (i : Instr) (e : Elements) : Host.Outcome Elements Fault Refusal :=
  match i with
  | .rndVxKk x kk => .next (drawInto r x kk e.asState).toElements
  | i => elementsOf (Sys2Proof.Machine.exec i e.asState)

/-- One step of the machine: any byte at all may be the input `r`, afresh at every step (R36, R237). -/
def Elements.step (r : Byte) (e : Elements) : Host.Outcome Elements Fault Refusal :=
  match fetchNext e.asState with
  | .error f => .fault f
  | .ok none => .next e
  | .ok (some i) => Elements.exec r i e

/-- `step(n)` (40_dispatch_engine.md R123) on the fourteen elements; `r k` is the input of its `k`-th step. -/
def Elements.stepN : (Nat → Byte) → Nat → Elements → Host.Outcome Elements Fault Refusal
  | _, 0, e => .next e
  | r, n + 1, e =>
    if e.blocked then .next e
    else
      match Elements.step (r 0) e with
      | .next e' => Elements.stepN (fun k => r (k + 1)) n e'
      | .fault f => .fault f
      | .refused x => .refused x

/-- An operation of the host (00_scope.md R9) on the fourteen elements. Only `step(n)` runs instructions, so only it
has inputs; `reset()` gives the elements of R39 whatever they were, and "reseed" has nothing to act on (R36, R290). -/
def Elements.hostExec (r : Nat → Byte) (op : HostOp) (e : Elements) : Host.Outcome Elements Fault Refusal :=
  match op with
  | .reset => .next Elements.reset
  | .load bytes => elementsOf (Sys2Proof.Machine.load bytes e.asState)
  | .compile w => elementsOf (Sys2Proof.Machine.compile w e.asState)
  | .step n => Elements.stepN r n e
  | .tick => .next e.asState.tick.toElements
  | .keyPressed key => .next (e.asState.keyPressed key).toElements
  | .keyReleased key => .next (e.asState.keyReleased key).toElements

/-- A history of operations, each with its own inputs (the spec's D27); it stops at the first Undefined. -/
def Elements.hostRun : List (HostOp × (Nat → Byte)) → Elements → Host.Outcome Elements Fault Refusal
  | [], e => .next e
  | (op, r) :: ops, e =>
    match Elements.hostExec r op e with
    | .next e' => Elements.hostRun ops e'
    | .fault f => .fault f
    | .refused x => .refused x

/-- The contents of the fourteen elements that some history with some inputs reaches from reset. -/
def Elements.Reachable (e : Elements) : Prop := ∃ ops, Elements.hostRun ops Elements.reset = .next e

end Sys2Proof.Machine
end

