-- ==== Sys2Proof/Safety.lean ====
section
/-! DEFINITION. The terms in which statements are made: frames (what an instruction leaves unchanged), the
invariant of the machine (10_state.md R24, R38), the conditions under which an instruction is Undefined
(60_exceptions.md R251), which instructions write what (10_state.md R21, R22, R37), and reachability. -/

namespace Sys2Proof.Machine

/-! ### Frames -/

/-- The state elements other than `V` and `PC`. -/
inductive Part where
  | i | stack | sp | dt | st | mem | dispatch | screen | keys | lastKey | blocked | wc | draws
  deriving DecidableEq, Repr

/-- That element holds in `t` what it held in `s`; for memory, every byte reads as before. -/
def Part.Same : Part → State → State → Prop
  | .i, s, t => t.i = s.i
  | .stack, s, t => t.stack = s.stack
  | .sp, s, t => t.sp = s.sp
  | .dt, s, t => t.dt = s.dt
  | .st, s, t => t.st = s.st
  | .mem, s, t => ∀ a, t.mem.read a = s.mem.read a
  | .dispatch, s, t => ∀ a, t.dispatch.handler a = s.dispatch.handler a
  | .screen, s, t => t.screen = s.screen
  | .keys, s, t => t.keys = s.keys
  | .lastKey, s, t => t.lastKey = s.lastKey
  | .blocked, s, t => t.blocked = s.blocked
  | .wc, s, t => t.wc = s.wc
  | .draws, s, t => t.draws = s.draws

/-- Every general register but those of `changed` is unchanged. -/
def RegsSame (changed : List Nibble) (s t : State) : Prop := ∀ r, r ∉ changed → t.reg r = s.reg r

/-- Every other element but those of `changed` is unchanged. -/
def PartsSame (changed : List Part) (s t : State) : Prop := ∀ p, p ∉ changed → p.Same s t

/-- The frame of an instruction: what it leaves unchanged; `PC` is not in it. -/
def Frame (regs : List Nibble) (parts : List Part) (s t : State) : Prop :=
  RegsSame regs s t ∧ PartsSame parts s t

/-- Every byte of memory outside `lo` to `hi` reads as before. -/
def SameMemoryOutside (lo hi : Nat) (s t : State) : Prop :=
  ∀ a, (a < lo ∨ hi < a) → t.mem.read a = s.mem.read a

/-! ### The invariant (10_state.md R24, R38) -/

/-- Memory and the dispatch table are in canonical form. -/
def State.Canonical (s : State) : Prop := s.mem.wf ∧ s.dispatch.wf

/-- R38 (b): the write cursor is even and within 0x200 to 0x1000. -/
def State.CursorInRange (s : State) : Prop :=
  s.wc.toNat % 2 = 0 ∧ 0x200 ≤ s.wc.toNat ∧ s.wc.toNat ≤ 0x1000

/-- R38 (c): a handler other than ILLEGAL stands only where `compile` has put it. -/
def State.HandlersCompiled (s : State) : Prop :=
  ∀ a, s.dispatch.handler a ≠ .illegal → a % 2 = 0 ∧ 0x200 ≤ a ∧ a ≤ 0xFFE ∧ a < s.wc.toNat

/-- R24: the bounds of `PC` and of the stacked return addresses. -/
def State.PcBounded (s : State) : Prop :=
  s.pc.toNat ≤ 0x10FE ∧ ∀ k : Nibble, s.stack[k.toNat].toNat ≤ 0x1000

/-- What holds "in every state reached from `reset`" (R38), with the bounds of R24. -/
def State.Inv (s : State) : Prop :=
  s.Canonical ∧ s.CursorInRange ∧ s.HandlersCompiled ∧ s.PcBounded

/-- The states that a history of host operations reaches from reset. -/
def Reachable (t : State) : Prop := ∃ ops, hostRun ops State.reset = .next t

/-! ### Undefined conditions of an instruction (60_exceptions.md R251) -/

/-- The Undefined reason an instruction raises in a state, from the conditions of R251: the last byte of the
access lies above 0xFFF, or the key number is above 15. -/
def undefinedReason (i : Instr) (s : State) : Option Fault :=
  match i with
  | .drwVxVyN _ _ n => if 1 ≤ n.toNat ∧ 0xFFF < s.i.toNat + (n.toNat - 1) then some .memRange else none
  | .ldBVx _ => if 0xFFF < s.i.toNat + 2 then some .memRange else none
  | .ldMiVx x => if 0xFFF < s.i.toNat + x.toNat then some .memRange else none
  | .ldVxMi x => if 0xFFF < s.i.toNat + x.toNat then some .memRange else none
  | .skpVx x => if 15 < (s.reg x).toNat then some .keyRange else none
  | .sknpVx x => if 15 < (s.reg x).toNat then some .keyRange else none
  | _ => none

/-! ### Who writes what (10_state.md R21, R22, R37) -/

/-- The instructions that write `V[15]` as the flag (R22). -/
def writesFlag : Instr → Bool
  | .addVxVy _ _ | .subVxVy _ _ | .subnVxVy _ _ | .shrVx _ | .shlVx _ | .drwVxVyN _ _ _ => true
  | _ => false

/-- The instruction writes `V[r]` as its result, by the rows "write `V[x]`" and "write `V[0..x]`" of R21. -/
def writesResult (i : Instr) (r : Nibble) : Bool :=
  match i with
  | .ldVxKk x _ | .addVxKk x _ | .ldVxVy x _ | .orVxVy x _ | .andVxVy x _ | .xorVxVy x _ => r == x
  | .addVxVy x _ | .subVxVy x _ | .subnVxVy x _ | .shrVx x | .shlVx x => r == x
  | .rndVxKk x _ | .ldVxDt x | .ldVxK x => r == x
  | .ldVxMi x => r.toNat ≤ x.toNat
  | _ => false

/-- The instructions that write an element other than `V` and `PC`, by the column "written by" of R37, by R29 to
R33 and by R237 (`draws`). -/
def Part.writtenBy (p : Part) (i : Instr) : Bool :=
  match p, i with
  | .i, .ldINnn _ | .i, .addIVx _ | .i, .ldFVx _ => true
  | .stack, .callNnn _ => true
  | .sp, .callNnn _ | .sp, .ret => true
  | .dt, .ldDtVx _ => true
  | .st, .ldStVx _ => true
  | .mem, .ldBVx _ | .mem, .ldMiVx _ => true
  | .screen, .cls | .screen, .drwVxVyN _ _ _ => true
  | .lastKey, .ldVxK _ | .blocked, .ldVxK _ => true
  | .draws, .rndVxKk _ _ => true
  | _, _ => false

/-! ### The sprite as a set of pixels (44_draw.md R212, R213) -/

/-- A set bit of the sprite of DRW Vx,Vy,n lies over the pixel `(px, py)`: some row `r` below `n` and column `c`
below 8 with `b[7 - c] = 1`, `b` the byte at `I + r`, wrap onto it (R212). -/
def SpriteCovers (s : State) (x y n : Nibble) (px py : Nat) : Prop :=
  ∃ r < n.toNat, ∃ c < 8,
    (s.mem.read (effAddr s r)).getLsbD (7 - c) = true ∧
    ((s.reg x).toNat + c) % 64 = px ∧ ((s.reg y).toNat + r) % 32 = py

end Sys2Proof.Machine
end

