-- ==== Sys2Proof/Certificates/Slice0/Obligations.lean ====
section
/-! DEFINITION. The statements for the provers. A docstring names the rule of spec/ a statement formalises, and
where a clause rests on a choice or an inference, the log entry. Throughout, `s.pc + 2` and `s.pc + 4` are modulo 2^16
(R24, the spec's D20, log 17), which no step reaches, and the frames of LD B, LD [I], LD Vx,[I] and DRW keep `I` (the
spec's D13, log 11). -/

open Sys2Proof Sys2Proof.Machine

/-! ### The engine -/

/-- R120, R127 (40_dispatch_engine.md), R71 (20_memory.md): a Running engine with `PC` in memory runs the handler
`Dispatch[PC]` on the fields of the word that stands at `PC` now; so where the handler is the one the bytes at `PC` decode to,
the step is `exec` of the decoded instruction. Nothing is added around `exec`: each handler moves `PC` itself (R24). -/
def Obligations.StepRunsDispatchedInstruction : Prop :=
  ∀ s : State, s.blocked = false → s.pc.toNat < 0xFFF →
    (s.dispatch.handler s.pc.toNat ≠ .illegal →
      step s = exec ((s.dispatch.handler s.pc.toNat).instr
        (s.mem.read s.pc.toNat ++ s.mem.read (s.pc.toNat + 1))) s) ∧
    (∀ i, i.wellFormed = true →
      decodeBytes [s.mem.read s.pc.toNat, s.mem.read (s.pc.toNat + 1)] = .ok (i, []) →
      s.dispatch.handler s.pc.toNat = i.handler → step s = exec i s)

/-- R123: the loop of `step(n)`, one iteration at a time; "a `step` called while `Blocked` is true changes nothing". -/
def Obligations.StepLoopStopsWhenBlocked : Prop :=
  ∀ (s : State) (n : Nat),
    stepN 0 s = .next s ∧
    (s.blocked = true → step s = .next s ∧ stepN n s = .next s) ∧
    (s.blocked = false → 0xFFF < s.pc.toNat → stepN (n + 1) s = .fault .fetchRange) ∧
    (s.blocked = false → ∀ t, step s = .next t → stepN (n + 1) s = stepN n t)

/-- R126 (40_dispatch_engine.md), D10: an instruction step with `PC` above 0xFFF is Undefined(FetchRange); the spec's
treatment of it as a fault is the spec's own decision (log 8). -/
def Obligations.FetchAboveMemoryFaults : Prop :=
  ∀ s : State, s.blocked = false → 0xFFF < s.pc.toNat → step s = .fault .fetchRange

/-- R123, D19: `step(a + b)` equals `step(a)` followed by `step(b)` (the spec marks it derived). -/
def Obligations.StepSumIsStepThenStep : Prop :=
  ∀ (a b : Nat) (s : State),
    (∀ t, stepN a s = .next t → stepN (a + b) s = stepN b t) ∧
    (∀ f, stepN a s = .fault f → stepN (a + b) s = .fault f)

/-- R123, R124: stopping early on Blocked is the same as stepping on, since a Blocked engine steps to itself: `step(n)` is
`n` steps of the core. -/
def Obligations.StepLoopIsCoreRun : Prop :=
  ∀ (n : Nat) (s : State), stepN n s = Host.Core.run Sys2Proof.core n s

/-- R124: from Running, an instruction leads to Blocked exactly when it is LD Vx,K with no key recorded. -/
def Obligations.OnlyKeyWaitBlocks : Prop :=
  ∀ (i : Instr) (s t : State), s.blocked = false → exec i s = .next t →
    (t.blocked = true ↔ (∃ x, i = .ldVxK x) ∧ s.lastKey = none)

/-- R125: ILLEGAL is a no-op that advances `PC`, at every address whose entry was never written, whatever the bytes
there are; and every word that no row selects decodes to it. -/
def Obligations.IllegalAdvancesAndNothingElse : Prop :=
  (∀ s : State, ∃ t, exec .illegal s = .next t ∧ t.pc = s.pc + 2 ∧ Frame [] [] s t) ∧
  (∀ s : State, s.blocked = false → s.pc.toNat ≤ 0xFFF → s.dispatch.handler s.pc.toNat = .illegal →
    ∃ t, step s = .next t ∧ t.pc = s.pc + 2 ∧ Frame [] [] s t) ∧
  (∀ w, (∀ h : Handler, h.selects w = false) → decodeWord w = .illegal)

/-- R64 (20_memory.md, marked derived): an odd `PC`, and an even one that was never compiled, runs as a no-op. -/
def Obligations.UncompiledAddressRunsAsNoOp : Prop :=
  ∀ s : State, s.Inv → s.blocked = false → s.pc.toNat ≤ 0xFFF →
    (s.pc.toNat % 2 = 1 ∨ s.pc.toNat < 0x200 ∨ s.wc.toNat ≤ s.pc.toNat) →
    ∃ t, step s = .next t ∧ t.pc = s.pc + 2 ∧ Frame [] [] s t

/-! ### Encoding -/

/-- R95, 95_test_vectors.md 2.1: a few words written out from the encodings of the spec (log 1). -/
def Obligations.WordsOfTheSpecDecode : Prop :=
  decodeWord 0x00E0 = .cls ∧ decodeWord 0x00EE = .ret ∧ decodeWord 0x1350 = .jpNnn 0x350 ∧
  decodeWord 0x3299 = .seVxKk 0x2 0x99 ∧ decodeWord 0x5120 = .seVxVy 0x1 0x2 ∧
  decodeWord 0x8124 = .addVxVy 0x1 0x2 ∧ decodeWord 0xA300 = .ldINnn 0x300 ∧
  decodeWord 0xD014 = .drwVxVyN 0x0 0x1 0x4 ∧ decodeWord 0xE19E = .skpVx 0x1 ∧
  decodeWord 0xF30A = .ldVxK 0x3 ∧ decodeWord 0xF255 = .ldMiVx 0x2 ∧ decodeWord 0x8128 = .illegal

/-- R91, R93, R95, R97: decoding the canonical word of an instruction gives the instruction back, every operand at
every value; the bytes after it are left alone. The numerals are the convention's (log 1). -/
def Obligations.DecodeOfEncodeIsIdentity : Prop :=
  ∀ (i : Instr) (rest : List Byte), i.wellFormed = true →
    decodeWord (encode i) = i ∧ decodeBytes (wordBytes (encode i) ++ rest) = .ok (i, rest)

/-- R94, R95: the hierarchical decoder is the opcode map: a word decodes to a handler exactly when it matches the
handler's row, and to ILLEGAL exactly when it matches none, so no two rows overlap (log 1, log 2). -/
def Obligations.DecoderFollowsOpcodeMap : Prop :=
  ∀ w : Word,
    (∀ h : Handler, h ≠ .illegal → (decode w = h ↔ h.selects w = true)) ∧
    (decode w = .illegal ↔ ∀ h : Handler, h.selects w = false)

/-- R97, D3: a word that differs from a canonical word only in the ignored bits is the same instruction (log 2). -/
def Obligations.IgnoredBitsAreIgnored : Prop :=
  ∀ (i : Instr) (w : Word), i ≠ .illegal →
    w &&& ~~~i.handler.ignoredBits = encode i → decodeWord w = i

/-! ### Control transfer (41_control.md) -/

/-- R141: JP nnn. -/
def Obligations.JumpGoesToAddress : Prop :=
  ∀ (nnn : Addr12) (s : State), ∃ t, exec (.jpNnn nnn) s = .next t ∧
    t.pc.toNat = nnn.toNat ∧ Frame [] [] s t

/-- R142: CALL nnn pushes `PC + 2` at `SP`, moves `SP` on modulo 16, and jumps. -/
def Obligations.CallPushesReturnAddress : Prop :=
  ∀ (nnn : Addr12) (s : State), ∃ t, exec (.callNnn nnn) s = .next t ∧
    t.pc.toNat = nnn.toNat ∧
    t.stack[s.sp.toNat].toNat = (s.pc.toNat + 2) % 65536 ∧
    (∀ k : Nibble, k ≠ s.sp → t.stack[k.toNat] = s.stack[k.toNat]) ∧
    t.spReg.toNat = (s.spReg.toNat + 1) % 16 ∧
    Frame [] [.stack, .sp] s t

/-- R143: RET steps `SP` back modulo 16 and takes `PC` from that entry, which keeps its value. -/
def Obligations.ReturnPopsStack : Prop :=
  ∀ s : State, ∃ t, exec .ret s = .next t ∧
    t.spReg.toNat = (s.spReg.toNat + 15) % 16 ∧
    t.pc = s.stack[t.sp.toNat] ∧
    Frame [] [.sp] s t

/-- R142, R143, R26: a call followed by a return goes on behind the call with `SP` as before, at every stack depth. -/
def Obligations.ReturnUndoesCall : Prop :=
  ∀ (nnn : Addr12) (s t : State), exec (.callNnn nnn) s = .next t →
    ∃ u, exec .ret t = .next u ∧ u.pc = s.pc + 2 ∧ u.sp = s.sp ∧ Frame [] [.stack] s u

/-- R26, R298: sixteen pushes bring `SP` back round and leave all sixteen values, the first at the entry `SP` pointed to;
"the seventeenth nested push overwrites" that oldest one. -/
def Obligations.SeventeenthPushOverwritesOldest : Prop :=
  ∀ (s : State) (ws : List Word) (w : Word), ws.length = 16 →
    (ws.foldl State.push s).sp = s.sp ∧
    (∀ k : Nibble, (ws.foldl State.push s).stack[(s.sp + k).toNat] = ws.getD k.toNat 0) ∧
    ((ws ++ [w]).foldl State.push s).stack[s.sp.toNat] = w ∧
    (∀ k : Nibble, k ≠ 0 →
      ((ws ++ [w]).foldl State.push s).stack[(s.sp + k).toNat] = ws.getD k.toNat 0)

/-- R144: JP V0,nnn adds the whole register, without reduction modulo 4096. -/
def Obligations.IndexedJumpAddsV0 : Prop :=
  ∀ (nnn : Addr12) (s : State), ∃ t, exec (.jpV0Nnn nnn) s = .next t ∧
    t.pc.toNat = nnn.toNat + (s.reg 0).toNat ∧ Frame [] [] s t

/-- R145, R146: SE Vx,kk and SNE Vx,kk. -/
def Obligations.ImmediateSkipsCompare : Prop :=
  ∀ (x : Nibble) (kk : Byte) (s : State),
    (∃ t, exec (.seVxKk x kk) s = .next t ∧
      t.pc = (if s.reg x = kk then s.pc + 4 else s.pc + 2) ∧ Frame [] [] s t) ∧
    (∃ t, exec (.sneVxKk x kk) s = .next t ∧
      t.pc = (if s.reg x ≠ kk then s.pc + 4 else s.pc + 2) ∧ Frame [] [] s t)

/-- R147, R148: SE Vx,Vy and SNE Vx,Vy. -/
def Obligations.RegisterSkipsCompare : Prop :=
  ∀ (x y : Nibble) (s : State),
    (∃ t, exec (.seVxVy x y) s = .next t ∧
      t.pc = (if s.reg x = s.reg y then s.pc + 4 else s.pc + 2) ∧ Frame [] [] s t) ∧
    (∃ t, exec (.sneVxVy x y) s = .next t ∧
      t.pc = (if s.reg x ≠ s.reg y then s.pc + 4 else s.pc + 2) ∧ Frame [] [] s t)

/-! ### Register loads and the ALU (42_alu.md) -/

/-- R160, R161: LD Vx,kk and ADD Vx,kk; the sum wraps modulo 256 and no flag is written. -/
def Obligations.ImmediateLoadAndAdd : Prop :=
  ∀ (x : Nibble) (kk : Byte) (s : State),
    (∃ t, exec (.ldVxKk x kk) s = .next t ∧
      t.reg x = kk ∧ t.pc = s.pc + 2 ∧ Frame [x] [] s t) ∧
    (∃ t, exec (.addVxKk x kk) s = .next t ∧
      (t.reg x).toNat = ((s.reg x).toNat + kk.toNat) % 256 ∧ t.pc = s.pc + 2 ∧ Frame [x] [] s t)

/-- R162 to R165: LD, OR, AND, XOR Vx,Vy; no flag is written. -/
def Obligations.RegisterCopyAndLogic : Prop :=
  ∀ (x y : Nibble) (s : State),
    (∃ t, exec (.ldVxVy x y) s = .next t ∧
      t.reg x = s.reg y ∧ t.pc = s.pc + 2 ∧ Frame [x] [] s t) ∧
    (∃ t, exec (.orVxVy x y) s = .next t ∧
      t.reg x = s.reg x ||| s.reg y ∧ t.pc = s.pc + 2 ∧ Frame [x] [] s t) ∧
    (∃ t, exec (.andVxVy x y) s = .next t ∧
      t.reg x = s.reg x &&& s.reg y ∧ t.pc = s.pc + 2 ∧ Frame [x] [] s t) ∧
    (∃ t, exec (.xorVxVy x y) s = .next t ∧
      t.reg x = s.reg x ^^^ s.reg y ∧ t.pc = s.pc + 2 ∧ Frame [x] [] s t)

/-- R166, R172: ADD Vx,Vy: the sum modulo 256 and the carry. For `x = 15` the flag prevails: the spec's D12 (log 10). -/
def Obligations.AddWritesSumAndCarry : Prop :=
  ∀ (x y : Nibble) (s : State), ∃ t, exec (.addVxVy x y) s = .next t ∧
    (x ≠ 15 → (t.reg x).toNat = ((s.reg x).toNat + (s.reg y).toNat) % 256) ∧
    (t.reg 15).toNat = (if (s.reg x).toNat + (s.reg y).toNat > 255 then 1 else 0) ∧
    t.pc = s.pc + 2 ∧ Frame [x, 15] [] s t

/-- R167, R169, R172: SUB and SUBN Vx,Vy: the difference modulo 256 and the strict no-borrow flag. For `x = 15` the result
prevails: the spec's D12 (log 10). -/
def Obligations.SubtractsWriteDifferenceAndNoBorrow : Prop :=
  ∀ (x y : Nibble) (s : State),
    (∃ t, exec (.subVxVy x y) s = .next t ∧
      (t.reg x).toNat = ((s.reg x).toNat + 256 - (s.reg y).toNat) % 256 ∧
      (x ≠ 15 → (t.reg 15).toNat = if (s.reg x).toNat > (s.reg y).toNat then 1 else 0) ∧
      t.pc = s.pc + 2 ∧ Frame [x, 15] [] s t) ∧
    (∃ t, exec (.subnVxVy x y) s = .next t ∧
      (t.reg x).toNat = ((s.reg y).toNat + 256 - (s.reg x).toNat) % 256 ∧
      (x ≠ 15 → (t.reg 15).toNat = if (s.reg y).toNat > (s.reg x).toNat then 1 else 0) ∧
      t.pc = s.pc + 2 ∧ Frame [x, 15] [] s t)

/-- R168, R170, R172: SHR and SHL Vx: one place, and the bit shifted out. For `x = 15` the result prevails: the spec's D12
(log 10). -/
def Obligations.ShiftsWriteResultAndLostBit : Prop :=
  ∀ (x : Nibble) (s : State),
    (∃ t, exec (.shrVx x) s = .next t ∧
      (t.reg x).toNat = (s.reg x).toNat / 2 ∧
      (x ≠ 15 → (t.reg 15).toNat = (s.reg x).toNat % 2) ∧
      t.pc = s.pc + 2 ∧ Frame [x, 15] [] s t) ∧
    (∃ t, exec (.shlVx x) s = .next t ∧
      (t.reg x).toNat = 2 * (s.reg x).toNat % 256 ∧
      (x ≠ 15 → (t.reg 15).toNat = (s.reg x).toNat / 128) ∧
      t.pc = s.pc + 2 ∧ Frame [x, 15] [] s t)

/-- R171 (marked derived): SUBN Vx,Vy is SUB with the operands exchanged and the result written to `V[x]`: from a state
whose `V[x]` and `V[y]` are swapped, SUB gives the same `V[x]` and the same flag. -/
def Obligations.SubnIsSubExchanged : Prop :=
  ∀ (x y : Nibble) (s t u : State), x ≠ y → x ≠ 15 → y ≠ 15 →
    exec (.subnVxVy x y) s = .next t →
    exec (.subVxVy x y) ((s.setReg x (s.reg y)).setReg y (s.reg x)) = .next u →
    t.reg x = u.reg x ∧ t.reg 15 = u.reg 15

/-! ### The address register, loads and stores (43_index_memory.md) -/

/-- R190, R191, R192: LD I,nnn; ADD I,Vx modulo 65536 without a flag (the modulus is the spec's D20, log 17); LD F,Vx
with the whole register (the spec's D28, log 24). -/
def Obligations.AddressRegisterWrites : Prop :=
  ∀ (nnn : Addr12) (x : Nibble) (s : State),
    (∃ t, exec (.ldINnn nnn) s = .next t ∧
      t.i.toNat = nnn.toNat ∧ t.pc = s.pc + 2 ∧ Frame [] [.i] s t) ∧
    (∃ t, exec (.addIVx x) s = .next t ∧
      t.i.toNat = (s.i.toNat + (s.reg x).toNat) % 65536 ∧ t.pc = s.pc + 2 ∧ Frame [] [.i] s t) ∧
    (∃ t, exec (.ldFVx x) s = .next t ∧
      t.i.toNat = (s.reg x).toNat * 5 ∧ t.pc = s.pc + 2 ∧ Frame [] [.i] s t)

/-- R193, R196: LD B,Vx stores the three decimal digits at `I`, `I + 1`, `I + 2` and nothing else, when they exist. The
canonical form of memory is a premise; `InvariantKeptByStep` states that it is kept. -/
def Obligations.BcdStoresThreeDigits : Prop :=
  ∀ (x : Nibble) (s : State), s.mem.wf → effAddr s 2 ≤ 0xFFF →
    ∃ t, exec (.ldBVx x) s = .next t ∧
      (t.mem.read (effAddr s 0)).toNat = (s.reg x).toNat / 100 ∧
      (t.mem.read (effAddr s 1)).toNat = (s.reg x).toNat / 10 % 10 ∧
      (t.mem.read (effAddr s 2)).toNat = (s.reg x).toNat % 10 ∧
      SameMemoryOutside (effAddr s 0) (effAddr s 2) s t ∧
      t.pc = s.pc + 2 ∧ Frame [] [.mem] s t

/-- R194, R196: LD [I],Vx stores `V[0..x]` at `I` upward and nothing else, when the block exists. -/
def Obligations.BlockStoreWritesRegisters : Prop :=
  ∀ (x : Nibble) (s : State), s.mem.wf → effAddr s x.toNat ≤ 0xFFF →
    ∃ t, exec (.ldMiVx x) s = .next t ∧
      (∀ k : Nibble, k.toNat ≤ x.toNat → t.mem.read (effAddr s k.toNat) = s.reg k) ∧
      SameMemoryOutside (effAddr s 0) (effAddr s x.toNat) s t ∧
      t.pc = s.pc + 2 ∧ Frame [] [.mem] s t

/-- R195, R196: LD Vx,[I] loads `V[0..x]` from `I` upward, when the block exists; the registers above `x` keep their
values, and so does memory. -/
def Obligations.BlockLoadReadsRegisters : Prop :=
  ∀ (x : Nibble) (s : State), effAddr s x.toNat ≤ 0xFFF →
    ∃ t, exec (.ldVxMi x) s = .next t ∧
      (∀ k : Nibble, k.toNat ≤ x.toNat → t.reg k = s.mem.read (effAddr s k.toNat)) ∧
      (∀ k : Nibble, x.toNat < k.toNat → t.reg k = s.reg k) ∧
      t.pc = s.pc + 2 ∧ PartsSame [] s t

/-- R195 (source §8): a block stored and then loaded from the same address, after any change of the registers, is
restored. -/
def Obligations.BlockStoreThenLoadRestores : Prop :=
  ∀ (x : Nibble) (s t u w : State), s.mem.wf → exec (.ldMiVx x) s = .next t →
    u.mem = t.mem → u.i = s.i → exec (.ldVxMi x) u = .next w →
    ∀ k : Nibble, k.toNat ≤ x.toNat → w.reg k = s.reg k

/-- R251, R12 (marked decision): the Undefined conditions of the handlers are exactly those of the catalogue: an
instruction faults with a reason exactly when its condition holds, is never refused (VF_OPERAND_POLICY
is literal, log 10), and otherwise completes (log 7, log 9). -/
def Obligations.FaultsAreTheCatalogue : Prop :=
  ∀ (i : Instr) (s : State),
    (∀ f, exec i s = .fault f ↔ undefinedReason i s = some f) ∧
    (∀ r, exec i s ≠ .refused r) ∧
    (undefinedReason i s = none → ∃ t, exec i s = .next t)

/-! ### The screen (44_draw.md) -/

/-- R211: CLS. -/
def Obligations.ClsClearsEveryPixel : Prop :=
  ∀ s : State, ∃ t, exec .cls s = .next t ∧
    (∀ px py, t.screen.pixel px py = false) ∧ t.pc = s.pc + 2 ∧ Frame [] [.screen] s t

/-- R212, R213: DRW inverts exactly the pixels a set sprite bit wraps onto, and `VF` says whether one of them was set
before. The order of the bits within a row is the convention's (log 4); `n = 0` draws nothing (log 23). -/
def Obligations.DrawXorsSpriteAndReportsCollision : Prop :=
  ∀ (x y n : Nibble) (s : State), (n.toNat = 0 ∨ effAddr s (n.toNat - 1) ≤ 0xFFF) →
    ∃ t, exec (.drwVxVyN x y n) s = .next t ∧
      (∀ px < 64, ∀ py < 32,
        (SpriteCovers s x y n px py → t.screen.pixel px py = !s.screen.pixel px py) ∧
        (¬ SpriteCovers s x y n px py → t.screen.pixel px py = s.screen.pixel px py)) ∧
      ((∃ px < 64, ∃ py < 32, SpriteCovers s x y n px py ∧ s.screen.pixel px py = true) → t.reg 15 = 1) ∧
      ((¬ ∃ px < 64, ∃ py < 32, SpriteCovers s x y n px py ∧ s.screen.pixel px py = true) → t.reg 15 = 0) ∧
      t.pc = s.pc + 2 ∧ Frame [15] [.screen] s t

/-- R213 (c, marked derived): the same sprite drawn twice restores the screen, and the second draw collides exactly when
some set sprite bit lay over a pixel that was clear before the first. It needs coordinates that the first draw leaves alone,
so `VF` is neither of them (with `VF` the second draw has another coordinate). -/
def Obligations.DrawTwiceRestoresScreen : Prop :=
  ∀ (x y n : Nibble) (s t : State), x ≠ 15 → y ≠ 15 → exec (.drwVxVyN x y n) s = .next t →
    ∃ u, exec (.drwVxVyN x y n) t = .next u ∧
      (∀ px < 64, ∀ py < 32, u.screen.pixel px py = s.screen.pixel px py) ∧
      (u.reg 15 = 1 ↔ ∃ px < 64, ∃ py < 32, SpriteCovers s x y n px py ∧ s.screen.pixel px py = false)

/-! ### Keys, timers, random (45_keys_timers_random.md) -/

/-- R231, R232: SKP and SKNP test the current state of the key that `V[x]` numbers; a number above 15 is
Undefined(KeyRange), the spec's D11 (log 9). -/
def Obligations.KeySkipsTestKeys : Prop :=
  ∀ (x k : Nibble) (s : State),
    (s.reg x = k.zext8 →
      (∃ t, exec (.skpVx x) s = .next t ∧
        t.pc = (if s.keys[k.toNat] = true then s.pc + 4 else s.pc + 2) ∧ Frame [] [] s t) ∧
      (∃ t, exec (.sknpVx x) s = .next t ∧
        t.pc = (if s.keys[k.toNat] = false then s.pc + 4 else s.pc + 2) ∧ Frame [] [] s t)) ∧
    (15 < (s.reg x).toNat →
      exec (.skpVx x) s = .fault .keyRange ∧ exec (.sknpVx x) s = .fault .keyRange)

/-- R233: LD Vx,K, both branches. -/
def Obligations.KeyWaitBlocksOrConsumes : Prop :=
  ∀ (x : Nibble) (s : State),
    (s.lastKey = none →
      ∃ t, exec (.ldVxK x) s = .next t ∧ t.blocked = true ∧ t.pc = s.pc ∧ Frame [] [.blocked] s t) ∧
    (∀ k, s.lastKey = some k →
      ∃ t, exec (.ldVxK x) s = .next t ∧ (t.reg x).toNat = k.toNat ∧ t.lastKey = none ∧
        t.blocked = false ∧ t.pc = s.pc + 2 ∧ Frame [x] [.lastKey, .blocked] s t)

/-- R233, R254, R255 (source §8): a key wait with no key blocks; a release does not wake it; a press does, and the next
step of the same instruction consumes the key. -/
def Obligations.KeyPressWakesKeyWait : Prop :=
  ∀ (x k : Nibble) (released : Option Nibble) (s : State),
    s.blocked = false → s.lastKey = none → fetchInstr s = .ok (.ldVxK x) →
    ∃ t u, step s = .next t ∧ t.blocked = true ∧ t.pc = s.pc ∧
      step (t.keyReleased released) = .next (t.keyReleased released) ∧
      step (t.keyPressed (some k)) = .next u ∧ (u.reg x).toNat = k.toNat ∧ u.pc = s.pc + 2 ∧
      u.blocked = false ∧ u.lastKey = none ∧ u.keys[k.toNat] = true

/-- R234, R235, R236: the three timer moves. -/
def Obligations.TimerMoves : Prop :=
  ∀ (x : Nibble) (s : State),
    (∃ t, exec (.ldVxDt x) s = .next t ∧ t.reg x = s.dt ∧ t.pc = s.pc + 2 ∧ Frame [x] [] s t) ∧
    (∃ t, exec (.ldDtVx x) s = .next t ∧ t.dt = s.reg x ∧ t.pc = s.pc + 2 ∧ Frame [] [.dt] s t) ∧
    (∃ t, exec (.ldStVx x) s = .next t ∧ t.st = s.reg x ∧ t.pc = s.pc + 2 ∧ Frame [] [.st] s t)

/-- R237: RND Vx,kk masks the free byte of this draw, so no bit outside the mask is ever set; the draw is used up. It
holds for every sequence of draws, which `Config.rnd` leaves open (log 15). -/
def Obligations.RandomIsMasked : Prop :=
  ∀ (x : Nibble) (kk : Byte) (s : State), ∃ t, exec (.rndVxKk x kk) s = .next t ∧
    t.reg x = Config.rnd s.draws &&& kk ∧ t.reg x &&& ~~~kk = 0 ∧ t.draws = s.draws + 1 ∧
    t.pc = s.pc + 2 ∧ Frame [x] [.draws] s t

/-! ### Who writes what -/

/-- R30, R32, R35, R37, and the read and write lists of 10_state.md: an instruction changes no element that it is not a
writer of; in particular none writes Dispatch, Keys or WC. -/
def Obligations.OnlyWritersChangeAnElement : Prop :=
  ∀ (i : Instr) (s t : State) (p : Part), exec i s = .next t → p.writtenBy i = false → p.Same s t

/-- R21, R22: a general register changes only when the instruction writes it as a result, or is one of the six that write
`VF` as the flag. -/
def Obligations.OnlyWritersChangeARegister : Prop :=
  ∀ (i : Instr) (s t : State) (r : Nibble), exec i s = .next t → t.reg r ≠ s.reg r →
    writesResult i r = true ∨ (r = 15 ∧ writesFlag i = true)

/-- R22: after an instruction that writes the flag, and whose result goes elsewhere, `VF` is 0x00 or 0x01. -/
def Obligations.FlagIsZeroOrOne : Prop :=
  ∀ (i : Instr) (s t : State), exec i s = .next t → writesFlag i = true → writesResult i 15 = false →
    t.reg 15 = 0x00 ∨ t.reg 15 = 0x01

/-- R28, R35, R306: no instruction reads `ST` or `WC`: two runs that differ only there go the same way and differ only
there afterwards. -/
def Obligations.SoundTimerAndCursorAreNotRead : Prop :=
  ∀ (i : Instr) (s : State) (b : Byte) (c : Word),
    (∀ t, exec i s = .next t → ∃ b', exec i { s with st := b, wc := c } = .next { t with st := b', wc := c }) ∧
    (∀ f, exec i s = .fault f → exec i { s with st := b, wc := c } = .fault f)

/-- R20, R36, R237: outside RND the next state is a function of the fourteen elements alone: with another place in the
stream of random inputs every other instruction has the same outcome, and none but RND moves that place (log 15). -/
def Obligations.OnlyRandomReadsTheDraws : Prop :=
  ∀ (i : Instr) (s : State) (d : Nat), (∀ x kk, i ≠ .rndVxKk x kk) →
    (∀ t, exec i s = .next t → t.draws = s.draws ∧ exec i { s with draws := d } = .next { t with draws := d }) ∧
    (∀ f, exec i s = .fault f → exec i { s with draws := d } = .fault f)

/-- R20, R36, R237: the core is the machine over exactly the fourteen elements, fed with the stream of random inputs: a
step of `State` does to the elements what `Elements.step` does with the next byte of the stream, in every outcome, and
moves on in the stream exactly when it runs RND (log 15). -/
def Obligations.CoreIsTheMachineWithInputs : Prop :=
  ∀ s : State,
    elementsOf (step s) = Elements.step (Config.rnd s.draws) s.toElements ∧
    (∀ t x kk, step s = .next t → fetchNext s = .ok (some (.rndVxKk x kk)) → t.draws = s.draws + 1) ∧
    (∀ t, step s = .next t → (∀ x kk, fetchNext s ≠ .ok (some (.rndVxKk x kk))) → t.draws = s.draws)

/-- R20, R36, R9: the same for the rest of the machine: reset gives the elements `Elements.reset`, and every operation of
the host and every history of them does to the elements what it does over the fourteen alone for some inputs, in every
outcome (log 15). -/
def Obligations.HostIsTheMachineWithInputs : Prop :=
  State.reset.toElements = Elements.reset ∧
  (∀ (op : HostOp) (s : State), ∃ r, elementsOf (hostExec op s) = Elements.hostExec r op s.toElements) ∧
  (∀ (ops : List HostOp) (s : State), ∃ evs : List (HostOp × (Nat → Byte)), evs.map Prod.fst = ops ∧
    elementsOf (hostRun ops s) = Elements.hostRun evs s.toElements)

/-- R237, R36: the input of RND is free: `V[x]` can become every byte that has no bit outside the mask, and no other, from
every content of the fourteen elements; the rest of them does not depend on the input. -/
def Obligations.RandomInputGivesEveryMaskedByte : Prop :=
  ∀ (x : Nibble) (kk b : Byte) (e : Elements),
    ((∃ r e', Elements.exec r (.rndVxKk x kk) e = .next e' ∧ e'.v[x.toNat] = b) ↔ b &&& ~~~kk = 0) ∧
    (∀ r, ∃ e', Elements.exec r (.rndVxKk x kk) e = .next e' ∧
      e' = { e with v := e.v.set x.toNat (r &&& kk), pc := e.pc + 2 })

/-! ### Reset and the host's operations -/

/-- R39, R290: the state after reset. `PC` and the ILLEGAL entries are the source's; the font bytes are presumed
(log 3) and the zeros and `WC` are the spec's D7 and D23 (log 5). -/
def Obligations.ResetState : Prop :=
  State.reset.pc = 0x200 ∧ (∀ a, State.reset.dispatch.handler a = .illegal) ∧
  (∀ j < 80, State.reset.mem.read j = Config.font.getD j 0) ∧
  (∀ a, 80 ≤ a → State.reset.mem.read a = 0x00) ∧
  (∀ r, State.reset.reg r = 0x00) ∧ State.reset.i = 0 ∧ State.reset.spReg = 0 ∧
  (∀ k : Nibble, State.reset.stack[k.toNat] = 0) ∧ State.reset.dt = 0 ∧ State.reset.st = 0 ∧
  (∀ px py, State.reset.screen.pixel px py = false) ∧ (∀ k, State.reset.key k = false) ∧
  State.reset.lastKey = none ∧ State.reset.blocked = false ∧ State.reset.wc = 0x200

/-- R121: `compile` puts the word, big-endian, and its handler at `WC` and moves `WC` on by 2; it changes nothing else,
`PC` included. With no room it is refused (the spec's D16, log 13). -/
def Obligations.CompileWritesWordAndHandler : Prop :=
  ∀ (w : Word) (s : State), s.mem.wf → s.dispatch.wf →
    (s.wc.toNat ≤ 0xFFE → ∃ t, compile w s = .next t ∧
      (t.mem.read s.wc.toNat).toNat = w.toNat / 256 ∧ (t.mem.read (s.wc.toNat + 1)).toNat = w.toNat % 256 ∧
      SameMemoryOutside s.wc.toNat (s.wc.toNat + 1) s t ∧
      t.dispatch.handler s.wc.toNat = decode w ∧
      (∀ a, a ≠ s.wc.toNat → t.dispatch.handler a = s.dispatch.handler a) ∧
      t.wc.toNat = s.wc.toNat + 2 ∧ t.pc = s.pc ∧ Frame [] [.mem, .dispatch, .wc] s t) ∧
    (0xFFE < s.wc.toNat → compile w s = .refused .compileRange)

/-- R122, R294 (marked derived): after `load` of a well-formed image every byte stands at 0x200 upward, every pair has its
handler, every other entry is ILLEGAL, and all else is as after reset, whatever the machine was before. -/
def Obligations.LoadPlacesImage : Prop :=
  ∀ (bytes : List Byte) (s : State), imageWellFormed bytes = true →
    ∃ t, load bytes s = .next t ∧
      (∀ j < bytes.length, t.mem.read (0x200 + j) = bytes.getD j 0) ∧
      (∀ a, (a < 0x200 ∨ 0x200 + bytes.length ≤ a) → t.mem.read a = State.reset.mem.read a) ∧
      (∀ k, 2 * k < bytes.length →
        t.dispatch.handler (0x200 + 2 * k) = decode (bytes.getD (2 * k) 0 ++ bytes.getD (2 * k + 1) 0)) ∧
      (∀ a, (a < 0x200 ∨ 0x200 + bytes.length ≤ a ∨ a % 2 = 1) → t.dispatch.handler a = .illegal) ∧
      t.wc.toNat = 0x200 + bytes.length ∧ t.pc = 0x200 ∧
      Frame [] [.mem, .dispatch, .wc, .draws] State.reset t

/-- R122, D15: an image of odd length and an image of more than 3584 bytes are refused (log 13). -/
def Obligations.LoadRefusesBadImage : Prop :=
  ∀ (bytes : List Byte) (s : State),
    (bytes.length % 2 = 1 → load bytes s = .refused .loadOdd) ∧
    (bytes.length % 2 = 0 → 3584 < bytes.length → load bytes s = .refused .compileRange)

/-- R253: `tick` counts `DT` down to 0 and changes nothing else; `ST` is not decremented (the spec's D8, log 6). -/
def Obligations.TickCountsDelayTimerDown : Prop :=
  ∀ s : State, s.tick.dt.toNat = s.dt.toNat - 1 ∧ s.tick.st = s.st ∧ s.tick.pc = s.pc ∧
    Frame [] [.dt] s s.tick

/-- R254, R255: a press sets the key, records it and clears Blocked, in either engine state; a release only clears the key;
both ignore NOKEY. -/
def Obligations.KeyEventsUpdateKeypad : Prop :=
  ∀ (k : Nibble) (s : State),
    s.keyPressed none = s ∧ s.keyReleased none = s ∧
    (s.keyPressed (some k)).keys[k.toNat] = true ∧ (s.keyPressed (some k)).lastKey = some k ∧
    (s.keyPressed (some k)).blocked = false ∧ (s.keyReleased (some k)).keys[k.toNat] = false ∧
    (∀ j : Nibble, j ≠ k → (s.keyPressed (some k)).keys[j.toNat] = s.keys[j.toNat] ∧
      (s.keyReleased (some k)).keys[j.toNat] = s.keys[j.toNat]) ∧
    (s.keyPressed (some k)).pc = s.pc ∧ Frame [] [.keys, .lastKey, .blocked] s (s.keyPressed (some k)) ∧
    (s.keyReleased (some k)).pc = s.pc ∧ Frame [] [.keys] s (s.keyReleased (some k))

/-- R290, R294: whatever the history, a `reset()` after it leaves every element of the spec at its reset value, and a
`load` after it does what it does from reset. The model's own draw counter goes on (log 15). -/
def Obligations.ResetForgetsEverything : Prop :=
  ∀ (ops : List HostOp) (s t : State), hostRun ops s = .next t →
    hostRun (ops ++ [.reset]) s = .next { State.reset with draws := t.draws } ∧
    ∀ bytes, hostRun (ops ++ [.load bytes]) s = hostRun [.load bytes] { State.reset with draws := t.draws }

/-! ### The invariant -/

/-- R38, R24: the invariant holds after reset. -/
def Obligations.InvariantAtReset : Prop := State.reset.Inv

/-- R38, R24 (marked derived): every step keeps the invariant: memory and dispatch table in canonical form, the cursor in
range, handlers only where `compile` put them, `PC` and the return addresses bounded. -/
def Obligations.InvariantKeptByStep : Prop :=
  ∀ s t : State, s.Inv → step s = .next t → t.Inv

/-- R38: every operation of the host keeps the invariant, so it holds in every state reached from reset; and over the
fourteen elements alone it holds of every content that a history reaches from reset, whatever the random inputs. -/
def Obligations.InvariantInEveryReachableState : Prop :=
  (∀ (op : HostOp) (s t : State), s.Inv → hostExec op s = .next t → t.Inv) ∧
  (∀ t : State, Reachable t → t.Inv) ∧
  (∀ e : Elements, e.Reachable → e.asState.Inv)

/-- R38 (d): in a state of the invariant a Running engine faults on the fetch only above 0xFFF: a handler other than
ILLEGAL always finds both of its bytes. -/
def Obligations.FetchFaultsOnlyAboveMemory : Prop :=
  ∀ (s : State) (f : Fault), s.Inv → (fetchInstr s = .error f ↔ f = .fetchRange ∧ 0xFFF < s.pc.toNat)

/-- The model's own form of memory (log 21): two memories in canonical form that read alike are the same data, and so are
two dispatch tables. -/
def Obligations.CanonicalFormIsUnique : Prop :=
  (∀ m m' : Memory, m.wf → m'.wf → (∀ a, m.read a = m'.read a) → m = m') ∧
  (∀ d d' : DispatchTable, d.wf → d'.wf → (∀ a, d.handler a = d'.handler a) → d = d')
end

