-- ==== Sys2Proof/Laws/Sparse.lean ====
section
/-! SUPPORT. Sparse tables: an entry read back after a write, the canonical form kept by a write, and equal
reads mean equal tables; then the same for memory and the dispatch table. -/

namespace Sys2Proof.Machine

section Sparse

variable {α : Type} [DecidableEq α] (dflt : Nat → α)

theorem Sparse.get_cons (m : List (Nat × α)) (a b : Nat) (w : α) (h : Sparse.get dflt m a = dflt a) :
    Sparse.get dflt (Sparse.cons dflt a w m) b = if b = a then w else Sparse.get dflt m b := by
  unfold Sparse.cons
  split
  · split
    · subst b; simp_all
    · rfl
  · simp only [Sparse.get, eq_comm]

omit [DecidableEq α] in
theorem Sparse.get_of_lt (m : List (Nat × α)) (a : Nat) (h : ∀ e ∈ m, a < e.1) :
    Sparse.get dflt m a = dflt a := by
  induction m with
  | nil => rfl
  | cons e m ih =>
    have he := h e (by simp)
    rw [Sparse.get, if_neg (by omega), ih (fun e' h' => h e' (by simp [h']))]

/-- A write into a table with rising keys is read back, and every other entry reads as before. -/
theorem Sparse.get_set (m : List (Nat × α)) (a b : Nat) (w : α)
    (hm : (m.map Prod.fst).Pairwise (· < ·)) :
    Sparse.get dflt (Sparse.set dflt m a w) b = if b = a then w else Sparse.get dflt m b := by
  induction m with
  | nil => exact Sparse.get_cons dflt [] a b w rfl
  | cons e m ih =>
    obtain ⟨k, u⟩ := e
    simp only [List.map_cons, List.pairwise_cons, List.mem_map] at hm
    have hk : ∀ e ∈ m, k < e.1 := fun e he => hm.1 _ ⟨e, he, rfl⟩
    unfold Sparse.set
    split
    · refine Sparse.get_cons dflt _ a b w (Sparse.get_of_lt dflt _ a ?_)
      rintro e (_ | ⟨_, he⟩)
      · assumption
      · exact Nat.lt_trans ‹_› (hk e he)
    · split
      · subst k
        rw [Sparse.get_cons dflt m a b w (Sparse.get_of_lt dflt m a hk)]
        split
        · rfl
        · rw [Sparse.get, if_neg (by omega)]
      · simp only [Sparse.get, ih hm.2]
        split
        · rw [if_neg (by omega)]
        · rfl

/-- A write leaves every other entry as it was, whatever the form of the table. -/
theorem Sparse.get_set_ne (m : List (Nat × α)) (a b : Nat) (w : α) (h : b ≠ a) :
    Sparse.get dflt (Sparse.set dflt m a w) b = Sparse.get dflt m b := by
  have hcons : ∀ m', Sparse.get dflt (Sparse.cons dflt a w m') b = Sparse.get dflt m' b := by
    intro m'
    unfold Sparse.cons
    split
    · rfl
    · rw [Sparse.get, if_neg (Ne.symm h)]
  induction m with
  | nil => exact hcons []
  | cons e m ih =>
    unfold Sparse.set
    split
    · exact hcons _
    · split
      · rw [hcons, Sparse.get, if_neg (by omega)]
      · rw [Sparse.get, ih, Sparse.get]

theorem Sparse.wf_cons (bound a : Nat) (w : α) (m : List (Nat × α)) (hm : Sparse.wf dflt bound m)
    (ha : a < bound) (h : ∀ e ∈ m, a < e.1) : Sparse.wf dflt bound (Sparse.cons dflt a w m) := by
  unfold Sparse.cons
  split
  · exact hm
  · refine ⟨List.pairwise_cons.2 ⟨?_, hm.1⟩, ?_⟩
    · simp only [List.mem_map]
      rintro _ ⟨e, he, rfl⟩
      exact h e he
    · rintro e (_ | ⟨_, he⟩)
      · exact ⟨ha, by assumption⟩
      · exact hm.2 e he

theorem Sparse.mem_set {m : List (Nat × α)} {a : Nat} {w : α} {e : Nat × α}
    (h : e ∈ Sparse.set dflt m a w) : e.1 = a ∨ e ∈ m := by
  induction m with
  | nil =>
    simp only [Sparse.set, Sparse.cons] at h
    split at h <;> simp_all
  | cons e' m ih =>
    obtain ⟨k, u⟩ := e'
    simp only [Sparse.set, Sparse.cons] at h
    split at h
    · split at h
      · exact .inr h
      · exact (List.mem_cons.1 h).imp_left (congrArg Prod.fst)
    · split at h
      · split at h
        · exact .inr (List.mem_cons_of_mem _ h)
        · exact (List.mem_cons.1 h).imp (congrArg Prod.fst) (List.mem_cons_of_mem _)
      · rcases List.mem_cons.1 h with h | h
        · exact .inr (List.mem_cons.2 (.inl h))
        · exact (ih h).imp_right (List.mem_cons_of_mem _)

/-- A write below the bound keeps the canonical form. -/
theorem Sparse.wf_set (bound : Nat) (m : List (Nat × α)) (a : Nat) (w : α) (hm : Sparse.wf dflt bound m)
    (ha : a < bound) : Sparse.wf dflt bound (Sparse.set dflt m a w) := by
  induction m with
  | nil => exact Sparse.wf_cons dflt bound a w [] hm ha (by simp)
  | cons e m ih =>
    obtain ⟨k, u⟩ := e
    have hk : ∀ e ∈ m, k < e.1 := fun e he =>
      (List.pairwise_cons.1 hm.1).1 _ (List.mem_map_of_mem he)
    have htail : Sparse.wf dflt bound m :=
      ⟨(List.pairwise_cons.1 hm.1).2, fun e he => hm.2 e (List.mem_cons_of_mem _ he)⟩
    unfold Sparse.set
    split
    · refine Sparse.wf_cons dflt bound a w _ hm ha ?_
      rintro e (_ | ⟨_, he⟩)
      · assumption
      · exact Nat.lt_trans ‹_› (hk e he)
    · split
      · subst k
        exact Sparse.wf_cons dflt bound a w m htail ha hk
      · have hset := ih htail
        refine ⟨List.pairwise_cons.2 ⟨?_, hset.1⟩, ?_⟩
        · simp only [List.mem_map]
          rintro _ ⟨e, he, rfl⟩
          rcases Sparse.mem_set dflt he with h | h
          · omega
          · exact hk e h
        · rintro e (_ | ⟨_, he⟩)
          · exact hm.2 _ (by simp)
          · exact hset.2 e he

end Sparse

/-! ### Memory -/

theorem Memory.read_nil (a : Nat) : Memory.read [] a = Memory.default a := rfl

/-- A byte written is read back; every other byte reads as before. -/
theorem Memory.read_write {m : Memory} (hm : m.wf) (a c : Nat) (b : Byte) :
    (m.write a b).read c = if c = a then b else m.read c :=
  Sparse.get_set Memory.default m a c b hm.1

/-- A write leaves every other byte as it was. -/
theorem Memory.read_write_ne (m : Memory) {a c : Nat} (b : Byte) (h : c ≠ a) :
    (m.write a b).read c = m.read c :=
  Sparse.get_set_ne Memory.default m a c b h

/-- A write to an address that exists keeps the canonical form. -/
theorem Memory.wf_write {m : Memory} (hm : m.wf) {a : Nat} (ha : a ≤ 0xFFF) (b : Byte) :
    (m.write a b).wf :=
  Sparse.wf_set Memory.default _ m a b hm (by show a < 0x1000; omega)

/-! ### The dispatch table -/

theorem DispatchTable.handler_nil (a : Nat) : DispatchTable.handler [] a = .illegal := rfl

/-- A handler written is read back; every other entry is as before. -/
theorem DispatchTable.handler_set {d : DispatchTable} (hd : d.wf) (a c : Nat) (h : Handler) :
    (d.set a h).handler c = if c = a then h else d.handler c :=
  Sparse.get_set DispatchTable.default d a c h hd.1

/-- A write to an address that exists keeps the canonical form. -/
theorem DispatchTable.wf_set {d : DispatchTable} (hd : d.wf) {a : Nat} (ha : a ≤ 0xFFF) (h : Handler) :
    (d.set a h).wf :=
  Sparse.wf_set DispatchTable.default _ d a h hd (by show a < 0x1000; omega)

end Sys2Proof.Machine
end

