-- ==== Sys2Proof/Laws/State.lean ====
section
/-! SUPPORT. The state, field by field: what each update of State does to each field, what a register reads as
after a write, and the same for the two orders of flag and result. -/

namespace Sys2Proof.Machine

/-! ### The parameters at the values taken, and the state after reset -/

@[simp] theorem fill_eq (k : Nat) : Config.fill k = 0 := rfl
@[simp] theorem fillBit_eq : Config.fillBit = false := rfl

/-- Under VF_OPERAND_POLICY = literal a flag-writing instruction always runs. -/
@[simp] theorem finishFlagged_eq (x : Nibble) (s : State) : finishFlagged x s = .next s.advance := rfl

/-- RND writes one register and moves on. -/
@[simp] theorem drawInto_eq (r : Byte) (x : Nibble) (kk : Byte) (s : State) :
    drawInto r x kk s = (s.setReg x (r &&& kk)).advance := rfl

@[simp] theorem State.reset_toElements : State.reset.toElements = Elements.reset := rfl
@[simp] theorem Elements.reset_v : Elements.reset.v = Vector.replicate 16 0 := rfl
@[simp] theorem Elements.reset_pc : Elements.reset.pc = 0x0200 := rfl
@[simp] theorem Elements.reset_i : Elements.reset.i = 0 := rfl
@[simp] theorem Elements.reset_stack : Elements.reset.stack = Vector.replicate 16 0 := rfl
@[simp] theorem Elements.reset_sp : Elements.reset.sp = 0 := rfl
@[simp] theorem Elements.reset_dt : Elements.reset.dt = 0 := rfl
@[simp] theorem Elements.reset_st : Elements.reset.st = 0 := rfl
@[simp] theorem Elements.reset_mem : Elements.reset.mem = [] := rfl
@[simp] theorem Elements.reset_dispatch : Elements.reset.dispatch = [] := rfl
@[simp] theorem Elements.reset_screen : Elements.reset.screen = Screen.blank := rfl
@[simp] theorem Elements.reset_keys : Elements.reset.keys = Vector.replicate 16 false := rfl
@[simp] theorem Elements.reset_lastKey : Elements.reset.lastKey = none := rfl
@[simp] theorem Elements.reset_blocked : Elements.reset.blocked = false := rfl
@[simp] theorem Elements.reset_wc : Elements.reset.wc = 0x0200 := rfl
@[simp] theorem State.reset_draws : State.reset.draws = 0 := rfl

/-! ### `setReg` -/

@[simp] theorem State.setReg_v (s : State) (r : Nibble) (b : Byte) :
    (s.setReg r b).v = s.v.set r.toNat b := rfl
@[simp] theorem State.setReg_pc (s : State) (r : Nibble) (b : Byte) :
    (s.setReg r b).pc = s.pc := rfl
@[simp] theorem State.setReg_i (s : State) (r : Nibble) (b : Byte) :
    (s.setReg r b).i = s.i := rfl
@[simp] theorem State.setReg_stack (s : State) (r : Nibble) (b : Byte) :
    (s.setReg r b).stack = s.stack := rfl
@[simp] theorem State.setReg_sp (s : State) (r : Nibble) (b : Byte) :
    (s.setReg r b).sp = s.sp := rfl
@[simp] theorem State.setReg_dt (s : State) (r : Nibble) (b : Byte) :
    (s.setReg r b).dt = s.dt := rfl
@[simp] theorem State.setReg_st (s : State) (r : Nibble) (b : Byte) :
    (s.setReg r b).st = s.st := rfl
@[simp] theorem State.setReg_mem (s : State) (r : Nibble) (b : Byte) :
    (s.setReg r b).mem = s.mem := rfl
@[simp] theorem State.setReg_dispatch (s : State) (r : Nibble) (b : Byte) :
    (s.setReg r b).dispatch = s.dispatch := rfl
@[simp] theorem State.setReg_screen (s : State) (r : Nibble) (b : Byte) :
    (s.setReg r b).screen = s.screen := rfl
@[simp] theorem State.setReg_keys (s : State) (r : Nibble) (b : Byte) :
    (s.setReg r b).keys = s.keys := rfl
@[simp] theorem State.setReg_lastKey (s : State) (r : Nibble) (b : Byte) :
    (s.setReg r b).lastKey = s.lastKey := rfl
@[simp] theorem State.setReg_blocked (s : State) (r : Nibble) (b : Byte) :
    (s.setReg r b).blocked = s.blocked := rfl
@[simp] theorem State.setReg_wc (s : State) (r : Nibble) (b : Byte) :
    (s.setReg r b).wc = s.wc := rfl
@[simp] theorem State.setReg_draws (s : State) (r : Nibble) (b : Byte) :
    (s.setReg r b).draws = s.draws := rfl

/-! ### `push` -/

@[simp] theorem State.push_v (s : State) (w : Word) :
    (s.push w).v = s.v := rfl
@[simp] theorem State.push_pc (s : State) (w : Word) :
    (s.push w).pc = s.pc := rfl
@[simp] theorem State.push_i (s : State) (w : Word) :
    (s.push w).i = s.i := rfl
@[simp] theorem State.push_stack (s : State) (w : Word) :
    (s.push w).stack = s.stack.set s.sp.toNat w := rfl
@[simp] theorem State.push_sp (s : State) (w : Word) :
    (s.push w).sp = s.sp + 1 := rfl
@[simp] theorem State.push_dt (s : State) (w : Word) :
    (s.push w).dt = s.dt := rfl
@[simp] theorem State.push_st (s : State) (w : Word) :
    (s.push w).st = s.st := rfl
@[simp] theorem State.push_mem (s : State) (w : Word) :
    (s.push w).mem = s.mem := rfl
@[simp] theorem State.push_dispatch (s : State) (w : Word) :
    (s.push w).dispatch = s.dispatch := rfl
@[simp] theorem State.push_screen (s : State) (w : Word) :
    (s.push w).screen = s.screen := rfl
@[simp] theorem State.push_keys (s : State) (w : Word) :
    (s.push w).keys = s.keys := rfl
@[simp] theorem State.push_lastKey (s : State) (w : Word) :
    (s.push w).lastKey = s.lastKey := rfl
@[simp] theorem State.push_blocked (s : State) (w : Word) :
    (s.push w).blocked = s.blocked := rfl
@[simp] theorem State.push_wc (s : State) (w : Word) :
    (s.push w).wc = s.wc := rfl
@[simp] theorem State.push_draws (s : State) (w : Word) :
    (s.push w).draws = s.draws := rfl

/-! ### `drop` -/

@[simp] theorem State.drop_v (s : State) :
    (s.drop).v = s.v := rfl
@[simp] theorem State.drop_pc (s : State) :
    (s.drop).pc = s.pc := rfl
@[simp] theorem State.drop_i (s : State) :
    (s.drop).i = s.i := rfl
@[simp] theorem State.drop_stack (s : State) :
    (s.drop).stack = s.stack := rfl
@[simp] theorem State.drop_sp (s : State) :
    (s.drop).sp = s.sp - 1 := rfl
@[simp] theorem State.drop_dt (s : State) :
    (s.drop).dt = s.dt := rfl
@[simp] theorem State.drop_st (s : State) :
    (s.drop).st = s.st := rfl
@[simp] theorem State.drop_mem (s : State) :
    (s.drop).mem = s.mem := rfl
@[simp] theorem State.drop_dispatch (s : State) :
    (s.drop).dispatch = s.dispatch := rfl
@[simp] theorem State.drop_screen (s : State) :
    (s.drop).screen = s.screen := rfl
@[simp] theorem State.drop_keys (s : State) :
    (s.drop).keys = s.keys := rfl
@[simp] theorem State.drop_lastKey (s : State) :
    (s.drop).lastKey = s.lastKey := rfl
@[simp] theorem State.drop_blocked (s : State) :
    (s.drop).blocked = s.blocked := rfl
@[simp] theorem State.drop_wc (s : State) :
    (s.drop).wc = s.wc := rfl
@[simp] theorem State.drop_draws (s : State) :
    (s.drop).draws = s.draws := rfl

/-! ### `advance` -/

@[simp] theorem State.advance_v (s : State) :
    (s.advance).v = s.v := rfl
@[simp] theorem State.advance_pc (s : State) :
    (s.advance).pc = s.pc + 2 := rfl
@[simp] theorem State.advance_i (s : State) :
    (s.advance).i = s.i := rfl
@[simp] theorem State.advance_stack (s : State) :
    (s.advance).stack = s.stack := rfl
@[simp] theorem State.advance_sp (s : State) :
    (s.advance).sp = s.sp := rfl
@[simp] theorem State.advance_dt (s : State) :
    (s.advance).dt = s.dt := rfl
@[simp] theorem State.advance_st (s : State) :
    (s.advance).st = s.st := rfl
@[simp] theorem State.advance_mem (s : State) :
    (s.advance).mem = s.mem := rfl
@[simp] theorem State.advance_dispatch (s : State) :
    (s.advance).dispatch = s.dispatch := rfl
@[simp] theorem State.advance_screen (s : State) :
    (s.advance).screen = s.screen := rfl
@[simp] theorem State.advance_keys (s : State) :
    (s.advance).keys = s.keys := rfl
@[simp] theorem State.advance_lastKey (s : State) :
    (s.advance).lastKey = s.lastKey := rfl
@[simp] theorem State.advance_blocked (s : State) :
    (s.advance).blocked = s.blocked := rfl
@[simp] theorem State.advance_wc (s : State) :
    (s.advance).wc = s.wc := rfl
@[simp] theorem State.advance_draws (s : State) :
    (s.advance).draws = s.draws := rfl

/-! ### `skipIf` -/

@[simp] theorem State.skipIf_v (s : State) (c : Bool) :
    (s.skipIf c).v = s.v := rfl
@[simp] theorem State.skipIf_pc (s : State) (c : Bool) :
    (s.skipIf c).pc = s.pc + (if c then 4 else 2) := rfl
@[simp] theorem State.skipIf_i (s : State) (c : Bool) :
    (s.skipIf c).i = s.i := rfl
@[simp] theorem State.skipIf_stack (s : State) (c : Bool) :
    (s.skipIf c).stack = s.stack := rfl
@[simp] theorem State.skipIf_sp (s : State) (c : Bool) :
    (s.skipIf c).sp = s.sp := rfl
@[simp] theorem State.skipIf_dt (s : State) (c : Bool) :
    (s.skipIf c).dt = s.dt := rfl
@[simp] theorem State.skipIf_st (s : State) (c : Bool) :
    (s.skipIf c).st = s.st := rfl
@[simp] theorem State.skipIf_mem (s : State) (c : Bool) :
    (s.skipIf c).mem = s.mem := rfl
@[simp] theorem State.skipIf_dispatch (s : State) (c : Bool) :
    (s.skipIf c).dispatch = s.dispatch := rfl
@[simp] theorem State.skipIf_screen (s : State) (c : Bool) :
    (s.skipIf c).screen = s.screen := rfl
@[simp] theorem State.skipIf_keys (s : State) (c : Bool) :
    (s.skipIf c).keys = s.keys := rfl
@[simp] theorem State.skipIf_lastKey (s : State) (c : Bool) :
    (s.skipIf c).lastKey = s.lastKey := rfl
@[simp] theorem State.skipIf_blocked (s : State) (c : Bool) :
    (s.skipIf c).blocked = s.blocked := rfl
@[simp] theorem State.skipIf_wc (s : State) (c : Bool) :
    (s.skipIf c).wc = s.wc := rfl
@[simp] theorem State.skipIf_draws (s : State) (c : Bool) :
    (s.skipIf c).draws = s.draws := rfl

/-! ### `jump` -/

@[simp] theorem State.jump_v (s : State) (w : Word) :
    (s.jump w).v = s.v := rfl
@[simp] theorem State.jump_pc (s : State) (w : Word) :
    (s.jump w).pc = w := rfl
@[simp] theorem State.jump_i (s : State) (w : Word) :
    (s.jump w).i = s.i := rfl
@[simp] theorem State.jump_stack (s : State) (w : Word) :
    (s.jump w).stack = s.stack := rfl
@[simp] theorem State.jump_sp (s : State) (w : Word) :
    (s.jump w).sp = s.sp := rfl
@[simp] theorem State.jump_dt (s : State) (w : Word) :
    (s.jump w).dt = s.dt := rfl
@[simp] theorem State.jump_st (s : State) (w : Word) :
    (s.jump w).st = s.st := rfl
@[simp] theorem State.jump_mem (s : State) (w : Word) :
    (s.jump w).mem = s.mem := rfl
@[simp] theorem State.jump_dispatch (s : State) (w : Word) :
    (s.jump w).dispatch = s.dispatch := rfl
@[simp] theorem State.jump_screen (s : State) (w : Word) :
    (s.jump w).screen = s.screen := rfl
@[simp] theorem State.jump_keys (s : State) (w : Word) :
    (s.jump w).keys = s.keys := rfl
@[simp] theorem State.jump_lastKey (s : State) (w : Word) :
    (s.jump w).lastKey = s.lastKey := rfl
@[simp] theorem State.jump_blocked (s : State) (w : Word) :
    (s.jump w).blocked = s.blocked := rfl
@[simp] theorem State.jump_wc (s : State) (w : Word) :
    (s.jump w).wc = s.wc := rfl
@[simp] theorem State.jump_draws (s : State) (w : Word) :
    (s.jump w).draws = s.draws := rfl

/-! ### `setKey` -/

@[simp] theorem State.setKey_v (s : State) (k : Nibble) (b : Bool) :
    (s.setKey k b).v = s.v := rfl
@[simp] theorem State.setKey_pc (s : State) (k : Nibble) (b : Bool) :
    (s.setKey k b).pc = s.pc := rfl
@[simp] theorem State.setKey_i (s : State) (k : Nibble) (b : Bool) :
    (s.setKey k b).i = s.i := rfl
@[simp] theorem State.setKey_stack (s : State) (k : Nibble) (b : Bool) :
    (s.setKey k b).stack = s.stack := rfl
@[simp] theorem State.setKey_sp (s : State) (k : Nibble) (b : Bool) :
    (s.setKey k b).sp = s.sp := rfl
@[simp] theorem State.setKey_dt (s : State) (k : Nibble) (b : Bool) :
    (s.setKey k b).dt = s.dt := rfl
@[simp] theorem State.setKey_st (s : State) (k : Nibble) (b : Bool) :
    (s.setKey k b).st = s.st := rfl
@[simp] theorem State.setKey_mem (s : State) (k : Nibble) (b : Bool) :
    (s.setKey k b).mem = s.mem := rfl
@[simp] theorem State.setKey_dispatch (s : State) (k : Nibble) (b : Bool) :
    (s.setKey k b).dispatch = s.dispatch := rfl
@[simp] theorem State.setKey_screen (s : State) (k : Nibble) (b : Bool) :
    (s.setKey k b).screen = s.screen := rfl
@[simp] theorem State.setKey_keys (s : State) (k : Nibble) (b : Bool) :
    (s.setKey k b).keys = s.keys.set k.toNat b := rfl
@[simp] theorem State.setKey_lastKey (s : State) (k : Nibble) (b : Bool) :
    (s.setKey k b).lastKey = s.lastKey := rfl
@[simp] theorem State.setKey_blocked (s : State) (k : Nibble) (b : Bool) :
    (s.setKey k b).blocked = s.blocked := rfl
@[simp] theorem State.setKey_wc (s : State) (k : Nibble) (b : Bool) :
    (s.setKey k b).wc = s.wc := rfl
@[simp] theorem State.setKey_draws (s : State) (k : Nibble) (b : Bool) :
    (s.setKey k b).draws = s.draws := rfl

/-! ### `tick` -/

@[simp] theorem State.tick_v (s : State) :
    (s.tick).v = s.v := rfl
@[simp] theorem State.tick_pc (s : State) :
    (s.tick).pc = s.pc := rfl
@[simp] theorem State.tick_i (s : State) :
    (s.tick).i = s.i := rfl
@[simp] theorem State.tick_stack (s : State) :
    (s.tick).stack = s.stack := rfl
@[simp] theorem State.tick_sp (s : State) :
    (s.tick).sp = s.sp := rfl
@[simp] theorem State.tick_dt (s : State) :
    (s.tick).dt = countDown s.dt := rfl
@[simp] theorem State.tick_st (s : State) :
    (s.tick).st = s.st := rfl
@[simp] theorem State.tick_mem (s : State) :
    (s.tick).mem = s.mem := rfl
@[simp] theorem State.tick_dispatch (s : State) :
    (s.tick).dispatch = s.dispatch := rfl
@[simp] theorem State.tick_screen (s : State) :
    (s.tick).screen = s.screen := rfl
@[simp] theorem State.tick_keys (s : State) :
    (s.tick).keys = s.keys := rfl
@[simp] theorem State.tick_lastKey (s : State) :
    (s.tick).lastKey = s.lastKey := rfl
@[simp] theorem State.tick_blocked (s : State) :
    (s.tick).blocked = s.blocked := rfl
@[simp] theorem State.tick_wc (s : State) :
    (s.tick).wc = s.wc := rfl
@[simp] theorem State.tick_draws (s : State) :
    (s.tick).draws = s.draws := rfl

/-! ### `setRegs` writes `V` only -/

theorem State.setRegs_eq (s : State) (r : Nat) (bs : List Byte) :
    s.setRegs r bs = { s with v := (s.setRegs r bs).v } := by
  induction bs generalizing s r with
  | nil => rfl
  | cons b bs ih => rw [State.setRegs, ih]

@[simp] theorem State.setRegs_pc (s : State) (r : Nat) (bs : List Byte) :
    (s.setRegs r bs).pc = s.pc := by rw [State.setRegs_eq]
@[simp] theorem State.setRegs_i (s : State) (r : Nat) (bs : List Byte) :
    (s.setRegs r bs).i = s.i := by rw [State.setRegs_eq]
@[simp] theorem State.setRegs_stack (s : State) (r : Nat) (bs : List Byte) :
    (s.setRegs r bs).stack = s.stack := by rw [State.setRegs_eq]
@[simp] theorem State.setRegs_sp (s : State) (r : Nat) (bs : List Byte) :
    (s.setRegs r bs).sp = s.sp := by rw [State.setRegs_eq]
@[simp] theorem State.setRegs_dt (s : State) (r : Nat) (bs : List Byte) :
    (s.setRegs r bs).dt = s.dt := by rw [State.setRegs_eq]
@[simp] theorem State.setRegs_st (s : State) (r : Nat) (bs : List Byte) :
    (s.setRegs r bs).st = s.st := by rw [State.setRegs_eq]
@[simp] theorem State.setRegs_mem (s : State) (r : Nat) (bs : List Byte) :
    (s.setRegs r bs).mem = s.mem := by rw [State.setRegs_eq]
@[simp] theorem State.setRegs_dispatch (s : State) (r : Nat) (bs : List Byte) :
    (s.setRegs r bs).dispatch = s.dispatch := by rw [State.setRegs_eq]
@[simp] theorem State.setRegs_screen (s : State) (r : Nat) (bs : List Byte) :
    (s.setRegs r bs).screen = s.screen := by rw [State.setRegs_eq]
@[simp] theorem State.setRegs_keys (s : State) (r : Nat) (bs : List Byte) :
    (s.setRegs r bs).keys = s.keys := by rw [State.setRegs_eq]
@[simp] theorem State.setRegs_lastKey (s : State) (r : Nat) (bs : List Byte) :
    (s.setRegs r bs).lastKey = s.lastKey := by rw [State.setRegs_eq]
@[simp] theorem State.setRegs_blocked (s : State) (r : Nat) (bs : List Byte) :
    (s.setRegs r bs).blocked = s.blocked := by rw [State.setRegs_eq]
@[simp] theorem State.setRegs_wc (s : State) (r : Nat) (bs : List Byte) :
    (s.setRegs r bs).wc = s.wc := by rw [State.setRegs_eq]
@[simp] theorem State.setRegs_draws (s : State) (r : Nat) (bs : List Byte) :
    (s.setRegs r bs).draws = s.draws := by rw [State.setRegs_eq]

/-! ### Registers -/

/-- A register written is read back; every other register is as before. -/
@[simp] theorem State.reg_setReg (s : State) (r q : Nibble) (b : Byte) :
    (s.setReg r b).reg q = if q = r then b else s.reg q := by
  simp only [State.reg, State.setReg, Vector.getElem_set, eq_comm (a := r.toNat), BitVec.toNat_inj]

/-- Registers are equal as soon as `V` is. -/
theorem State.reg_congr {s t : State} (h : t.v = s.v) (r : Nibble) : t.reg r = s.reg r := by
  simp only [State.reg, h]

@[simp] theorem State.reg_push (s : State) (w : Word) (r : Nibble) : (s.push w).reg r = s.reg r := rfl
@[simp] theorem State.reg_drop (s : State) (r : Nibble) : (s.drop).reg r = s.reg r := rfl
@[simp] theorem State.reg_advance (s : State) (r : Nibble) : (s.advance).reg r = s.reg r := rfl
@[simp] theorem State.reg_skipIf (s : State) (c : Bool) (r : Nibble) : (s.skipIf c).reg r = s.reg r := rfl
@[simp] theorem State.reg_jump (s : State) (w : Word) (r : Nibble) : (s.jump w).reg r = s.reg r := rfl
@[simp] theorem State.reg_setKey (s : State) (k : Nibble) (b : Bool) (r : Nibble) : (s.setKey k b).reg r = s.reg r := rfl

/-- `V[r + k]` is the `k`-th byte of the block; every register outside the block is as before. -/
theorem State.reg_setRegs (s : State) (r : Nat) (bs : List Byte) (q : Nibble) :
    (s.setRegs r bs).reg q =
      if r ≤ q.toNat ∧ q.toNat < r + bs.length then bs.getD (q.toNat - r) 0 else s.reg q := by
  induction bs generalizing s r with
  | nil => simp [State.setRegs]
  | cons b bs ih =>
    rw [State.setRegs, ih]
    simp only [State.reg, List.length_cons, Vector.getElem_setIfInBounds]
    by_cases hq : q.toNat = r
    · subst hq; simp
    · rw [if_neg (Ne.symm hq)]
      by_cases h : r + 1 ≤ q.toNat ∧ q.toNat < r + 1 + bs.length
      · rw [if_pos h, if_pos (by omega), show q.toNat - r = (q.toNat - (r + 1)) + 1 by omega,
          List.getD_cons_succ]
      · rw [if_neg h, if_neg (by omega)]

/-- The first `n` registers as a list. -/
theorem State.getD_regsUpTo (s : State) (n : Nat) (q : Nibble) (h : q.toNat < n) :
    (s.regsUpTo n).getD q.toNat 0 = s.reg q := by
  have hq : q.toNat < 16 := q.isLt
  simp [State.regsUpTo, State.reg, List.getD_eq_getElem?_getD, h, hq]

@[simp] theorem State.length_regsUpTo (s : State) (n : Nat) : (s.regsUpTo n).length = min n 16 := by
  simp [State.regsUpTo]

/-! ### Flag and result (42_alu.md R172) -/

/-- ADD: the flag prevails in `VF`. -/
theorem State.reg_setResultThenFlag (s : State) (x q : Nibble) (result flag : Byte) :
    (s.setResultThenFlag x result flag).reg q =
      if q = vf then flag else if q = x then result else s.reg q := by
  simp [State.setResultThenFlag]

/-- SUB, SUBN, SHR, SHL: the result prevails in `VF`. -/
theorem State.reg_setFlagThenResult (s : State) (x q : Nibble) (result flag : Byte) :
    (s.setFlagThenResult x result flag).reg q =
      if q = x then result else if q = vf then flag else s.reg q := by
  simp [State.setFlagThenResult]

/-- Both orders write `V` only. -/
theorem State.setResultThenFlag_eq (s : State) (x : Nibble) (result flag : Byte) :
    s.setResultThenFlag x result flag = { s with v := (s.setResultThenFlag x result flag).v } := rfl

theorem State.setFlagThenResult_eq (s : State) (x : Nibble) (result flag : Byte) :
    s.setFlagThenResult x result flag = { s with v := (s.setFlagThenResult x result flag).v } := rfl

@[simp] theorem State.setResultThenFlag_pc (s : State) (x : Nibble) (result flag : Byte) :
    (s.setResultThenFlag x result flag).pc = s.pc := rfl
@[simp] theorem State.setResultThenFlag_i (s : State) (x : Nibble) (result flag : Byte) :
    (s.setResultThenFlag x result flag).i = s.i := rfl
@[simp] theorem State.setResultThenFlag_stack (s : State) (x : Nibble) (result flag : Byte) :
    (s.setResultThenFlag x result flag).stack = s.stack := rfl
@[simp] theorem State.setResultThenFlag_sp (s : State) (x : Nibble) (result flag : Byte) :
    (s.setResultThenFlag x result flag).sp = s.sp := rfl
@[simp] theorem State.setResultThenFlag_dt (s : State) (x : Nibble) (result flag : Byte) :
    (s.setResultThenFlag x result flag).dt = s.dt := rfl
@[simp] theorem State.setResultThenFlag_st (s : State) (x : Nibble) (result flag : Byte) :
    (s.setResultThenFlag x result flag).st = s.st := rfl
@[simp] theorem State.setResultThenFlag_mem (s : State) (x : Nibble) (result flag : Byte) :
    (s.setResultThenFlag x result flag).mem = s.mem := rfl
@[simp] theorem State.setResultThenFlag_dispatch (s : State) (x : Nibble) (result flag : Byte) :
    (s.setResultThenFlag x result flag).dispatch = s.dispatch := rfl
@[simp] theorem State.setResultThenFlag_screen (s : State) (x : Nibble) (result flag : Byte) :
    (s.setResultThenFlag x result flag).screen = s.screen := rfl
@[simp] theorem State.setResultThenFlag_keys (s : State) (x : Nibble) (result flag : Byte) :
    (s.setResultThenFlag x result flag).keys = s.keys := rfl
@[simp] theorem State.setResultThenFlag_lastKey (s : State) (x : Nibble) (result flag : Byte) :
    (s.setResultThenFlag x result flag).lastKey = s.lastKey := rfl
@[simp] theorem State.setResultThenFlag_blocked (s : State) (x : Nibble) (result flag : Byte) :
    (s.setResultThenFlag x result flag).blocked = s.blocked := rfl
@[simp] theorem State.setResultThenFlag_wc (s : State) (x : Nibble) (result flag : Byte) :
    (s.setResultThenFlag x result flag).wc = s.wc := rfl
@[simp] theorem State.setResultThenFlag_draws (s : State) (x : Nibble) (result flag : Byte) :
    (s.setResultThenFlag x result flag).draws = s.draws := rfl
@[simp] theorem State.setFlagThenResult_pc (s : State) (x : Nibble) (result flag : Byte) :
    (s.setFlagThenResult x result flag).pc = s.pc := rfl
@[simp] theorem State.setFlagThenResult_i (s : State) (x : Nibble) (result flag : Byte) :
    (s.setFlagThenResult x result flag).i = s.i := rfl
@[simp] theorem State.setFlagThenResult_stack (s : State) (x : Nibble) (result flag : Byte) :
    (s.setFlagThenResult x result flag).stack = s.stack := rfl
@[simp] theorem State.setFlagThenResult_sp (s : State) (x : Nibble) (result flag : Byte) :
    (s.setFlagThenResult x result flag).sp = s.sp := rfl
@[simp] theorem State.setFlagThenResult_dt (s : State) (x : Nibble) (result flag : Byte) :
    (s.setFlagThenResult x result flag).dt = s.dt := rfl
@[simp] theorem State.setFlagThenResult_st (s : State) (x : Nibble) (result flag : Byte) :
    (s.setFlagThenResult x result flag).st = s.st := rfl
@[simp] theorem State.setFlagThenResult_mem (s : State) (x : Nibble) (result flag : Byte) :
    (s.setFlagThenResult x result flag).mem = s.mem := rfl
@[simp] theorem State.setFlagThenResult_dispatch (s : State) (x : Nibble) (result flag : Byte) :
    (s.setFlagThenResult x result flag).dispatch = s.dispatch := rfl
@[simp] theorem State.setFlagThenResult_screen (s : State) (x : Nibble) (result flag : Byte) :
    (s.setFlagThenResult x result flag).screen = s.screen := rfl
@[simp] theorem State.setFlagThenResult_keys (s : State) (x : Nibble) (result flag : Byte) :
    (s.setFlagThenResult x result flag).keys = s.keys := rfl
@[simp] theorem State.setFlagThenResult_lastKey (s : State) (x : Nibble) (result flag : Byte) :
    (s.setFlagThenResult x result flag).lastKey = s.lastKey := rfl
@[simp] theorem State.setFlagThenResult_blocked (s : State) (x : Nibble) (result flag : Byte) :
    (s.setFlagThenResult x result flag).blocked = s.blocked := rfl
@[simp] theorem State.setFlagThenResult_wc (s : State) (x : Nibble) (result flag : Byte) :
    (s.setFlagThenResult x result flag).wc = s.wc := rfl
@[simp] theorem State.setFlagThenResult_draws (s : State) (x : Nibble) (result flag : Byte) :
    (s.setFlagThenResult x result flag).draws = s.draws := rfl

/-! ### Frames -/

/-- A state that differs in `V` and `PC` only keeps every other element. -/
theorem PartsSame.of_eq {s t : State} (h : t = { s with v := t.v, pc := t.pc }) : PartsSame [] s t := by
  intro p _
  rw [h]
  cases p <;> first | rfl | exact fun _ => rfl

end Sys2Proof.Machine
end

