-- ==== Sys2Proof/Laws/Blocks.lean ====
section
/-! SUPPORT. What the block reads and writes of memory do: in range they succeed with the stated bytes, out of
range they fault whole (20_memory.md R63, R65, R66). -/

namespace Sys2Proof.Machine

/-- A block read in range gives the bytes from `a` upward. -/
theorem memReadBlock_ok (s : State) (a n : Nat) (h : n = 0 ∨ a + n ≤ 0x1000) :
    memReadBlock s a n = .ok ((List.range n).map fun k => s.mem.read (a + k)) := by
  induction n generalizing a with
  | zero => rfl
  | succ n ih =>
    have ha : a ≤ 0xFFF := by omega
    simp only [memReadBlock, memRead, if_pos ha, ih (a + 1) (by omega), List.range_succ_eq_map,
      List.map_cons, List.map_map, Nat.add_zero, Except.ok.injEq, List.cons.injEq, true_and]
    refine List.map_congr_left fun k _ => ?_
    simp only [Function.comp_apply, Nat.succ_eq_add_one, Nat.add_assoc, Nat.add_comm 1 k]

/-- A block read that passes 0xFFF faults. -/
theorem memReadBlock_fault (s : State) (a n : Nat) (h0 : 0 < n) (h : 0x1000 < a + n) :
    memReadBlock s a n = .error .memRange := by
  induction n generalizing a with
  | zero => omega
  | succ n ih =>
    unfold memReadBlock memRead
    by_cases ha : a ≤ 0xFFF
    · simp only [if_pos ha, ih (a + 1) (by omega) (by omega)]
    · simp only [if_neg ha]

/-- Memory after the bytes are written from `a` upward. -/
def Memory.writes (m : Memory) (a : Nat) : List Byte → Memory
  | [] => m
  | b :: bs => Memory.writes (m.write a b) (a + 1) bs

/-- A block write in range is the writes of its bytes and nothing else. -/
theorem memWriteBlock_ok (s : State) (a : Nat) (bs : List Byte) (h : bs = [] ∨ a + bs.length ≤ 0x1000) :
    memWriteBlock s a bs = .ok { s with mem := s.mem.writes a bs } := by
  induction bs generalizing s a with
  | nil => rfl
  | cons b bs ih =>
    simp only [List.length_cons, reduceCtorEq, false_or] at h
    have ha : a ≤ 0xFFF := by omega
    simp only [memWriteBlock, memWrite, if_pos ha]
    exact ih { s with mem := s.mem.write a b } (a + 1) (.inr (by omega))

/-- A block write that passes 0xFFF faults, whatever came before the offending byte. -/
theorem memWriteBlock_fault (s : State) (a : Nat) (bs : List Byte) (h0 : bs ≠ [])
    (h : 0x1000 < a + bs.length) : memWriteBlock s a bs = .error .memRange := by
  induction bs generalizing s a with
  | nil => exact absurd rfl h0
  | cons b bs ih =>
    simp only [List.length_cons] at h
    unfold memWriteBlock memWrite
    by_cases ha : a ≤ 0xFFF
    · simp only [if_pos ha]
      refine ih _ (a + 1) ?_ (by omega)
      rintro rfl
      simp only [List.length_nil] at h
      omega
    · simp only [if_neg ha]

/-- A byte outside a written block reads as before. -/
theorem Memory.read_writes_outside (m : Memory) (a c : Nat) (bs : List Byte)
    (h : c < a ∨ a + bs.length ≤ c) : (m.writes a bs).read c = m.read c := by
  induction bs generalizing m a with
  | nil => rfl
  | cons b bs ih =>
    simp only [List.length_cons] at h
    rw [Memory.writes, ih _ _ (by omega), Memory.read_write_ne m b (by omega)]

/-- A written block in range keeps the canonical form. -/
theorem Memory.wf_writes {m : Memory} (hm : m.wf) (a : Nat) (bs : List Byte)
    (h : bs = [] ∨ a + bs.length ≤ 0x1000) : (m.writes a bs).wf := by
  induction bs generalizing m a with
  | nil => exact hm
  | cons b bs ih =>
    simp only [List.length_cons, reduceCtorEq, false_or] at h
    exact ih (Memory.wf_write hm (by omega) b) (a + 1) (.inr (by omega))

/-- The `k`-th byte of a written block is read back at `a + k`. -/
theorem Memory.read_writes {m : Memory} (hm : m.wf) (a k : Nat) (bs : List Byte) (hk : k < bs.length)
    (h : a + bs.length ≤ 0x1000) : (m.writes a bs).read (a + k) = bs.getD k 0 := by
  induction bs generalizing m a k with
  | nil => simp at hk
  | cons b bs ih =>
    simp only [List.length_cons] at h hk
    rw [Memory.writes]
    cases k with
    | zero =>
      rw [Memory.read_writes_outside _ _ _ _ (by omega), Memory.read_write hm, if_pos (by omega)]
      rfl
    | succ k =>
      rw [show a + (k + 1) = (a + 1) + k by omega,
        ih (Memory.wf_write hm (by omega) b) (a + 1) k (by omega) (by omega), List.getD_cons_succ]

/-- What a store instruction does: all of its bytes, then `PC + 2`; or a fault and nothing. -/
theorem storeBlock_cases (bs : List Byte) (s : State) (h0 : bs ≠ []) :
    (effAddr s 0 + bs.length ≤ 0x1000 ∧
      storeBlock bs s = .ok { s with mem := s.mem.writes (effAddr s 0) bs }.advance) ∨
    (0x1000 < effAddr s 0 + bs.length ∧ storeBlock bs s = .error .memRange) := by
  unfold storeBlock
  by_cases h : effAddr s 0 + bs.length ≤ 0x1000
  · exact .inl ⟨h, by rw [memWriteBlock_ok s _ bs (.inr h)]⟩
  · exact .inr ⟨by omega, by rw [memWriteBlock_fault s _ bs h0 (by omega)]⟩

/-- What the block load does: `V[0..n-1]` from `I` upward, then `PC + 2`; or a fault and nothing. -/
theorem loadBlock_cases (n : Nat) (s : State) (h0 : 0 < n) :
    (effAddr s 0 + n ≤ 0x1000 ∧
      loadBlock n s =
        .ok (s.setRegs 0 ((List.range n).map fun k => s.mem.read (effAddr s 0 + k))).advance) ∨
    (0x1000 < effAddr s 0 + n ∧ loadBlock n s = .error .memRange) := by
  unfold loadBlock
  by_cases h : effAddr s 0 + n ≤ 0x1000
  · exact .inl ⟨h, by rw [memReadBlock_ok s _ n (.inr h)]⟩
  · exact .inr ⟨by omega, by rw [memReadBlock_fault s _ n h0 (by omega)]⟩

end Sys2Proof.Machine
end

