-- ==== Sys2Proof/Laws/Decode.lean ====
section
/-! SUPPORT. Fields and formats (30_encoding.md R91, R92): each field of a word built by a format is the operand it
was built from, and the masks of R95 leave exactly the selecting bits. -/

namespace Sys2Proof

/-! ### The bits of a format and of a field -/

theorem getLsbD_formatA (op : Nibble) (nnn : Addr12) (i : Nat) :
    (formatA op nnn).getLsbD i = if i < 12 then nnn.getLsbD i else op.getLsbD (i - 12) :=
  BitVec.getLsbD_append

theorem getLsbD_formatXK (op x : Nibble) (kk : Byte) (i : Nat) :
    (formatXK op x kk).getLsbD i =
      if i < 12 then (if i < 8 then kk.getLsbD i else x.getLsbD (i - 8)) else op.getLsbD (i - 12) :=
  (BitVec.getLsbD_append (x := op) (y := x ++ kk)).trans (by rw [BitVec.getLsbD_append])

theorem getLsbD_formatXYN (op x y n : Nibble) (i : Nat) :
    (formatXYN op x y n).getLsbD i =
      if i < 12 then
        (if i < 8 then (if i < 4 then n.getLsbD i else y.getLsbD (i - 4)) else x.getLsbD (i - 8))
      else op.getLsbD (i - 12) :=
  (BitVec.getLsbD_append (x := op) (y := x ++ (y ++ n))).trans
    (by rw [BitVec.getLsbD_append]; rw [BitVec.getLsbD_append])

/-- Bit `i` of a field that starts at bit `lo`. -/
theorem getLsbD_slice (w : Word) (lo len i : Nat) (h : i < len) :
    (w.extractLsb' lo len).getLsbD i = w.getLsbD (lo + i) := by
  simp [h]

/-! ### Fields of a format -/

@[simp] theorem opField_formatA (op : Nibble) (nnn : Addr12) : opField (formatA op nnn) = op := by
  refine BitVec.eq_of_getLsbD_eq fun i hi => ?_
  rw [opField, getLsbD_slice _ _ _ _ hi, getLsbD_formatA]
  rw [if_neg (show ¬ 12 + i < 12 by omega), show 12 + i - 12 = i by omega]

@[simp] theorem nnnField_formatA (op : Nibble) (nnn : Addr12) : nnnField (formatA op nnn) = nnn := by
  refine BitVec.eq_of_getLsbD_eq fun i hi => ?_
  rw [nnnField, getLsbD_slice _ _ _ _ hi, getLsbD_formatA]
  rw [if_pos (show 0 + i < 12 by omega), Nat.zero_add]

@[simp] theorem opField_formatXK (op x : Nibble) (kk : Byte) : opField (formatXK op x kk) = op := by
  refine BitVec.eq_of_getLsbD_eq fun i hi => ?_
  rw [opField, getLsbD_slice _ _ _ _ hi, getLsbD_formatXK]
  rw [if_neg (show ¬ 12 + i < 12 by omega), show 12 + i - 12 = i by omega]

@[simp] theorem xField_formatXK (op x : Nibble) (kk : Byte) : xField (formatXK op x kk) = x := by
  refine BitVec.eq_of_getLsbD_eq fun i hi => ?_
  rw [xField, getLsbD_slice _ _ _ _ hi, getLsbD_formatXK]
  rw [if_pos (show 8 + i < 12 by omega), if_neg (show ¬ 8 + i < 8 by omega), show 8 + i - 8 = i by omega]

@[simp] theorem kkField_formatXK (op x : Nibble) (kk : Byte) : kkField (formatXK op x kk) = kk := by
  refine BitVec.eq_of_getLsbD_eq fun i hi => ?_
  rw [kkField, getLsbD_slice _ _ _ _ hi, getLsbD_formatXK]
  rw [if_pos (show 0 + i < 12 by omega), if_pos (show 0 + i < 8 by omega), Nat.zero_add]

@[simp] theorem opField_formatXYN (op x y n : Nibble) : opField (formatXYN op x y n) = op := by
  refine BitVec.eq_of_getLsbD_eq fun i hi => ?_
  rw [opField, getLsbD_slice _ _ _ _ hi, getLsbD_formatXYN]
  rw [if_neg (show ¬ 12 + i < 12 by omega), show 12 + i - 12 = i by omega]

@[simp] theorem xField_formatXYN (op x y n : Nibble) : xField (formatXYN op x y n) = x := by
  refine BitVec.eq_of_getLsbD_eq fun i hi => ?_
  rw [xField, getLsbD_slice _ _ _ _ hi, getLsbD_formatXYN]
  rw [if_pos (show 8 + i < 12 by omega), if_neg (show ¬ 8 + i < 8 by omega), show 8 + i - 8 = i by omega]

@[simp] theorem yField_formatXYN (op x y n : Nibble) : yField (formatXYN op x y n) = y := by
  refine BitVec.eq_of_getLsbD_eq fun i hi => ?_
  rw [yField, getLsbD_slice _ _ _ _ hi, getLsbD_formatXYN]
  rw [if_pos (show 4 + i < 12 by omega), if_pos (show 4 + i < 8 by omega), if_neg (show ¬ 4 + i < 4 by omega), show 4 + i - 4 = i by omega]

@[simp] theorem nField_formatXYN (op x y n : Nibble) : nField (formatXYN op x y n) = n := by
  refine BitVec.eq_of_getLsbD_eq fun i hi => ?_
  rw [nField, getLsbD_slice _ _ _ _ hi, getLsbD_formatXYN]
  rw [if_pos (show 0 + i < 12 by omega), if_pos (show 0 + i < 8 by omega), if_pos (show 0 + i < 4 by omega), Nat.zero_add]

/-! ### A word is its fields -/

/-- Every word is its family and its address field. -/
theorem formatA_fields (w : Word) : formatA (opField w) (nnnField w) = w := by
  refine BitVec.eq_of_getLsbD_eq fun i hi => ?_
  rw [getLsbD_formatA]
  split
  · next h => rw [nnnField, getLsbD_slice _ _ _ _ h, Nat.zero_add]
  · next h => rw [opField, getLsbD_slice _ _ _ _ (by omega), show 12 + (i - 12) = i by omega]

/-- Every word is its family, its first selector and its low byte. -/
theorem formatXK_fields (w : Word) : formatXK (opField w) (xField w) (kkField w) = w := by
  refine BitVec.eq_of_getLsbD_eq fun i hi => ?_
  rw [getLsbD_formatXK]
  split
  · split
    · next h => rw [kkField, getLsbD_slice _ _ _ _ h, Nat.zero_add]
    · next h => rw [xField, getLsbD_slice _ _ _ _ (by omega), show 8 + (i - 8) = i by omega]
  · next h => rw [opField, getLsbD_slice _ _ _ _ (by omega), show 12 + (i - 12) = i by omega]

/-- Every word is its four nibbles. -/
theorem formatXYN_fields (w : Word) : formatXYN (opField w) (xField w) (yField w) (nField w) = w := by
  refine BitVec.eq_of_getLsbD_eq fun i hi => ?_
  rw [getLsbD_formatXYN]
  split
  · split
    · split
      · next h => rw [nField, getLsbD_slice _ _ _ _ h, Nat.zero_add]
      · next h => rw [yField, getLsbD_slice _ _ _ _ (by omega), show 4 + (i - 4) = i by omega]
    · next h => rw [xField, getLsbD_slice _ _ _ _ (by omega), show 8 + (i - 8) = i by omega]
  · next h => rw [opField, getLsbD_slice _ _ _ _ (by omega), show 12 + (i - 12) = i by omega]

/-- The two bytes of a word, high byte first, give the word back (20_memory.md R62). -/
theorem hiByte_append_loByte (w : Word) : (hiByte w ++ loByte w : Word) = w := by
  refine BitVec.eq_of_getLsbD_eq fun i hi => ?_
  refine (BitVec.getLsbD_append (x := hiByte w) (y := loByte w)).trans ?_
  split
  · next h => rw [loByte, getLsbD_slice _ _ _ _ h, Nat.zero_add]
  · next h => rw [hiByte, getLsbD_slice _ _ _ _ (by omega), show 8 + (i - 8) = i by omega]

/-- A big-endian pair of bytes as a number. -/
theorem toNat_byteAppend (hi lo : Byte) : (hi ++ lo : Word).toNat = hi.toNat * 256 + lo.toNat := by
  refine (BitVec.toNat_append hi lo).trans ?_
  rw [← Nat.shiftLeft_add_eq_or_of_lt lo.isLt, Nat.shiftLeft_eq]

/-- A format determines its operands. -/
theorem formatA_inj {op op' : Nibble} {nnn nnn' : Addr12} (h : formatA op nnn = formatA op' nnn') :
    op = op' ∧ nnn = nnn' :=
  ⟨by simpa using congrArg opField h, by simpa using congrArg nnnField h⟩

theorem formatXK_inj {op op' x x' : Nibble} {kk kk' : Byte} (h : formatXK op x kk = formatXK op' x' kk') :
    op = op' ∧ x = x' ∧ kk = kk' :=
  ⟨by simpa using congrArg opField h, by simpa using congrArg xField h, by simpa using congrArg kkField h⟩

theorem formatXYN_inj {op op' x x' y y' n n' : Nibble} (h : formatXYN op x y n = formatXYN op' x' y' n') :
    op = op' ∧ x = x' ∧ y = y' ∧ n = n' :=
  ⟨by simpa using congrArg opField h, by simpa using congrArg xField h, by simpa using congrArg yField h,
    by simpa using congrArg nField h⟩

/-- Under ALIAS_DECODE decoding does not look at the ignored bits. -/
theorem decode_eq_decodeMasked (w : Word) : decode w = decodeMasked w := by
  simp [decode, Config.aliasDecode]

/-! ### The masks of R95 on a format: a mask is itself a word of the format -/

theorem formatA_and (op op' : Nibble) (nnn nnn' : Addr12) :
    formatA op nnn &&& formatA op' nnn' = formatA (op &&& op') (nnn &&& nnn') := by
  refine BitVec.eq_of_getLsbD_eq fun i _ => ?_
  rw [BitVec.getLsbD_and]
  simp only [getLsbD_formatA, BitVec.getLsbD_and]
  split <;> rfl

theorem formatXK_and (op op' x x' : Nibble) (kk kk' : Byte) :
    formatXK op x kk &&& formatXK op' x' kk' = formatXK (op &&& op') (x &&& x') (kk &&& kk') := by
  refine BitVec.eq_of_getLsbD_eq fun i _ => ?_
  rw [BitVec.getLsbD_and]
  simp only [getLsbD_formatXK, BitVec.getLsbD_and]
  split
  · split <;> rfl
  · rfl

theorem formatXYN_and (op op' x x' y y' n n' : Nibble) :
    formatXYN op x y n &&& formatXYN op' x' y' n' =
      formatXYN (op &&& op') (x &&& x') (y &&& y') (n &&& n') := by
  refine BitVec.eq_of_getLsbD_eq fun i _ => ?_
  rw [BitVec.getLsbD_and]
  simp only [getLsbD_formatXYN, BitVec.getLsbD_and]
  split
  · split
    · split <;> rfl
    · rfl
  · rfl

theorem and_zeros {k : Nat} (b : BitVec k) : b &&& 0 = 0 := BitVec.and_zero
theorem nibble_and_ones (n : Nibble) : n &&& 0xF = n := BitVec.and_allOnes
theorem byte_and_ones (b : Byte) : b &&& 0xFF = b := BitVec.and_allOnes

/-- Mask 0xF000 on format A. -/
theorem formatA_and_family (op : Nibble) (nnn : Addr12) : formatA op nnn &&& 0xF000 = formatA op 0 := by
  rw [show (0xF000 : Word) = formatA 0xF 0 from rfl, formatA_and]
  simp only [and_zeros, nibble_and_ones]

/-- Mask 0xF000 on format XK. -/
theorem formatXK_and_family (op x : Nibble) (kk : Byte) :
    formatXK op x kk &&& 0xF000 = formatXK op 0 0 := by
  rw [show (0xF000 : Word) = formatXK 0xF 0 0 from rfl, formatXK_and]
  simp only [and_zeros, nibble_and_ones]

/-- Mask 0xF0FF on format X. -/
theorem formatXK_and_byte (op x : Nibble) (kk : Byte) :
    formatXK op x kk &&& 0xF0FF = formatXK op 0 kk := by
  rw [show (0xF0FF : Word) = formatXK 0xF 0 0xFF from rfl, formatXK_and]
  simp only [and_zeros, nibble_and_ones, byte_and_ones]

/-- Mask 0xF000 on formats XY and XYN. -/
theorem formatXYN_and_family (op x y n : Nibble) :
    formatXYN op x y n &&& 0xF000 = formatXYN op 0 0 0 := by
  rw [show (0xF000 : Word) = formatXYN 0xF 0 0 0 from rfl, formatXYN_and]
  simp only [and_zeros, nibble_and_ones]

/-- Mask 0xF00F on format XY. -/
theorem formatXYN_and_nibble (op x y n : Nibble) :
    formatXYN op x y n &&& 0xF00F = formatXYN op 0 0 n := by
  rw [show (0xF00F : Word) = formatXYN 0xF 0 0 0xF from rfl, formatXYN_and]
  simp only [and_zeros, nibble_and_ones]

/-! ### The masks of R95 on a word: each leaves exactly the fields that select -/

theorem and_family_iff (w : Word) (op : Nibble) : w &&& 0xF000 = formatA op 0 ↔ opField w = op := by
  conv_lhs => rw [← formatA_fields w, formatA_and_family]
  exact ⟨fun h => (formatA_inj h).1, fun h => by rw [h]⟩

theorem and_byte_iff (w : Word) (op : Nibble) (kk : Byte) :
    w &&& 0xF0FF = formatXK op 0 kk ↔ opField w = op ∧ kkField w = kk := by
  conv_lhs => rw [← formatXK_fields w, formatXK_and_byte]
  exact ⟨fun h => ⟨(formatXK_inj h).1, (formatXK_inj h).2.2⟩, fun h => by rw [h.1, h.2]⟩

theorem and_nibble_iff (w : Word) (op n : Nibble) :
    w &&& 0xF00F = formatXYN op 0 0 n ↔ opField w = op ∧ nField w = n := by
  conv_lhs => rw [← formatXYN_fields w, formatXYN_and_nibble]
  exact ⟨fun h => ⟨(formatXYN_inj h).1, (formatXYN_inj h).2.2.2⟩, fun h => by rw [h.1, h.2]⟩

end Sys2Proof
end

