-- ==== Sys2Proof/Laws/Draw.lean ====
section
/-! SUPPORT. What the sprite engine does (44_draw.md R212, R213): drawing is the inversion of a list of points no
two of which are the same pixel, so each pixel is inverted exactly when some point lies on it, and `hit` says
whether some point lay on a pixel that was set before. -/

namespace Sys2Proof.Machine

theorem Screen.pixel_blank (px py : Nat) : Screen.blank.pixel px py = false := by
  simp [Screen.blank, Screen.filled, Screen.pixel]

/-- Inverting a pixel inverts that pixel and no other. -/
theorem Screen.pixel_toggle (scr : Screen) (px py qx qy : Nat) :
    (scr.toggle px py).pixel qx qy =
      (scr.pixel qx qy ^^ decide (px % 64 = qx % 64 ∧ py % 32 = qy % 32)) := by
  unfold Screen.toggle Screen.pixel
  rw [Vector.getElem_set]
  by_cases hy : py % 32 = qy % 32
  · simp only [hy, if_true]
    rw [Vector.getElem_set]
    by_cases hx : px % 64 = qx % 64
    · simp [hx]
    · simp [hx]
  · simp [hy]

/-- Two points are the same pixel. -/
abbrev SamePixel (p q : Nat × Nat) : Prop := p.1 % 64 = q.1 % 64 ∧ p.2 % 32 = q.2 % 32

/-- Drawing set bits at a list of points. -/
def drawPoints (ps : List (Nat × Nat)) (c : Screen × Bool) : Screen × Bool :=
  ps.foldl (fun c p => drawBit true p.1 p.2 c) c

/-- What drawing distinct points does to every pixel. -/
theorem pixel_drawPoints (ps : List (Nat × Nat)) (c : Screen × Bool) (qx qy : Nat)
    (h : ps.Pairwise fun p q => ¬ SamePixel p q) :
    (drawPoints ps c).1.pixel qx qy =
      (c.1.pixel qx qy ^^ decide (∃ p ∈ ps, SamePixel p (qx, qy))) := by
  induction ps generalizing c with
  | nil => simp [drawPoints]
  | cons p ps ih =>
    obtain ⟨hp, hps⟩ := List.pairwise_cons.1 h
    rw [drawPoints, List.foldl_cons]
    show (drawPoints ps _).1.pixel qx qy = _
    rw [ih _ hps]
    simp only [drawBit, if_true, Screen.pixel_toggle, List.exists_mem_cons_iff]
    by_cases h1 : SamePixel p (qx, qy)
    · have h2 : ¬ ∃ q ∈ ps, SamePixel q (qx, qy) := by
        rintro ⟨q, hq, hs⟩
        exact hp q hq ⟨h1.1.trans hs.1.symm, h1.2.trans hs.2.symm⟩
      simp [h1, h2]
    · simp [h1]

/-- What drawing distinct points reports: some point lay on a pixel that was set before. -/
theorem hit_drawPoints (ps : List (Nat × Nat)) (c : Screen × Bool)
    (h : ps.Pairwise fun p q => ¬ SamePixel p q) :
    (drawPoints ps c).2 = (c.2 || decide (∃ p ∈ ps, c.1.pixel p.1 p.2 = true)) := by
  induction ps generalizing c with
  | nil => simp [drawPoints]
  | cons p ps ih =>
    obtain ⟨hp, hps⟩ := List.pairwise_cons.1 h
    rw [drawPoints, List.foldl_cons]
    show (drawPoints ps _).2 = _
    rw [ih _ hps]
    have hsame : (∃ q ∈ ps, (c.1.toggle p.1 p.2).pixel q.1 q.2 = true) ↔
        ∃ q ∈ ps, c.1.pixel q.1 q.2 = true := by
      refine exists_congr fun q => and_congr_right fun hq => ?_
      rw [Screen.pixel_toggle, decide_eq_false (hp q hq), Bool.xor_false]
    simp only [drawBit, if_true, hsame, List.exists_mem_cons_iff, Bool.decide_or,
      Bool.decide_eq_true, Bool.or_assoc]

/-- The points of a sprite row: its set columns. -/
def rowPoints (b : Byte) (x0 py : Nat) : List (Nat × Nat) :=
  ((List.range 8).filter fun col => spriteBit b col).map fun col => (x0 + col, py)

/-- The points of a sprite. -/
def spritePoints (x0 : Nat) : Nat → List Byte → List (Nat × Nat)
  | _, [] => []
  | py, b :: bs => rowPoints b x0 py ++ spritePoints x0 (py + 1) bs

theorem drawRow_eq (b : Byte) (x0 py : Nat) (c : Screen × Bool) :
    drawRow b x0 py c = drawPoints (rowPoints b x0 py) c := by
  have h : ∀ (l : List Nat) (c : Screen × Bool),
      l.foldl (fun c col => drawBit (spriteBit b col) (x0 + col) py c) c =
        drawPoints ((l.filter fun col => spriteBit b col).map fun col => (x0 + col, py)) c := by
    intro l
    induction l with
    | nil => intro c; rfl
    | cons a l ih =>
      intro c
      rw [List.foldl_cons, ih, List.filter_cons]
      split
      · next hb => rw [hb]; rfl
      · next hb => rw [Bool.not_eq_true] at hb; rw [hb]; rfl
  exact h _ c

/-- Drawing the rows is drawing the points of the sprite. -/
theorem drawRows_eq (x0 py : Nat) (bs : List Byte) (c : Screen × Bool) :
    drawRows x0 py bs c = drawPoints (spritePoints x0 py bs) c := by
  induction bs generalizing py c with
  | nil => rfl
  | cons b bs ih =>
    rw [drawRows, ih, drawRow_eq, spritePoints, drawPoints, drawPoints, drawPoints, List.foldl_append]

/-- A point of the sprite is a set bit of one of its rows. -/
theorem mem_spritePoints (x0 py : Nat) (bs : List Byte) (p : Nat × Nat) :
    p ∈ spritePoints x0 py bs ↔
      ∃ r < bs.length, ∃ col < 8, spriteBit (bs.getD r 0) col = true ∧ p = (x0 + col, py + r) := by
  induction bs generalizing py with
  | nil => simp [spritePoints]
  | cons b bs ih =>
    simp only [spritePoints, List.mem_append, ih, rowPoints, List.mem_map, List.mem_filter,
      List.mem_range, List.length_cons]
    constructor
    · rintro (⟨col, ⟨h8, hb⟩, rfl⟩ | ⟨r, hr, col, h8, hb, rfl⟩)
      · exact ⟨0, by omega, col, h8, hb, rfl⟩
      · exact ⟨r + 1, by omega, col, h8, hb, by rw [Nat.add_assoc, Nat.add_comm 1 r]⟩
    · rintro ⟨r, hr, col, h8, hb, rfl⟩
      cases r with
      | zero => exact .inl ⟨col, ⟨h8, hb⟩, rfl⟩
      | succ r => exact .inr ⟨r, by omega, col, h8, hb, by rw [Nat.add_assoc, Nat.add_comm 1 r]⟩

/-- R213 (a): "No pixel is visited twice", for a sprite of at most 32 rows. -/
theorem spritePoints_distinct (x0 py : Nat) (bs : List Byte) (h : bs.length ≤ 32) :
    (spritePoints x0 py bs).Pairwise fun p q => ¬ SamePixel p q := by
  induction bs generalizing py with
  | nil => exact List.Pairwise.nil
  | cons b bs ih =>
    simp only [List.length_cons] at h
    refine List.pairwise_append.2 ⟨?_, ih (py + 1) (by omega), ?_⟩
    · refine List.Pairwise.map _ (R := fun a b : Nat => a < 8 ∧ b < 8 ∧ a ≠ b) ?_ ?_
      · rintro a b ⟨ha, hb, hab⟩ ⟨h1, -⟩
        simp only at h1
        omega
      · refine List.Pairwise.filter _ ?_
        decide
    · rintro p hp q hq ⟨-, hs⟩
      obtain ⟨col, -, rfl⟩ := List.mem_map.1 hp
      obtain ⟨r, hr, col', -, -, rfl⟩ := (mem_spritePoints _ _ _ _).1 hq
      simp only at hs
      omega

/-- What a sprite of at most 32 rows does to every pixel. -/
theorem pixel_drawSprite (s : State) (x y : Nibble) (rows : List Byte) (h : rows.length ≤ 32) (qx qy : Nat) :
    (drawSprite s x y rows).1.pixel qx qy =
      (s.screen.pixel qx qy ^^
        decide (∃ p ∈ spritePoints (s.reg x).toNat (s.reg y).toNat rows, SamePixel p (qx, qy))) := by
  rw [drawSprite, drawRows_eq, pixel_drawPoints _ _ _ _ (spritePoints_distinct _ _ _ h)]

/-- What a sprite of at most 32 rows reports. -/
theorem hit_drawSprite (s : State) (x y : Nibble) (rows : List Byte) (h : rows.length ≤ 32) :
    (drawSprite s x y rows).2 =
      decide (∃ p ∈ spritePoints (s.reg x).toNat (s.reg y).toNat rows, s.screen.pixel p.1 p.2 = true) := by
  rw [drawSprite, drawRows_eq, hit_drawPoints _ _ (spritePoints_distinct _ _ _ h), Bool.false_or]

/-- What DRW does: the sprite and `VF`, then `PC + 2`; or a fault and nothing. -/
theorem drawBlock_cases (x y n : Nibble) (s : State) :
    ((n.toNat = 0 ∨ effAddr s 0 + n.toNat ≤ 0x1000) ∧
      drawBlock x y n s =
        .ok (drawState s x y ((List.range n.toNat).map fun k => s.mem.read (effAddr s 0 + k))).advance) ∨
    (0 < n.toNat ∧ 0x1000 < effAddr s 0 + n.toNat ∧ drawBlock x y n s = .error .memRange) := by
  unfold drawBlock
  by_cases h : n.toNat = 0 ∨ effAddr s 0 + n.toNat ≤ 0x1000
  · exact .inl ⟨h, by rw [memReadBlock_ok s _ _ h]⟩
  · exact .inr ⟨by omega, by omega, by rw [memReadBlock_fault s _ _ (by omega) (by omega)]⟩

/-- DRW writes the screen and `V` only. -/
theorem drawState_eq (s : State) (x y : Nibble) (rows : List Byte) :
    drawState s x y rows =
      { s with screen := (drawSprite s x y rows).1, v := (drawState s x y rows).v } := rfl

end Sys2Proof.Machine
end

