-- ==== Sys2Proof/Laws/Step.lean ====
section
/-! SUPPORT. What a fetch and a step can do, said once (40_dispatch_engine.md R123, R126, R127), and what placing a
word leaves where the next step fetches. -/

namespace Sys2Proof.Machine

/-- `Fetch16` in range is the big-endian word at `a`. -/
theorem fetch16_ok (s : State) (a : Nat) (h : a < 0xFFF) :
    fetch16 s a = .ok (s.mem.read a ++ s.mem.read (a + 1)) := by
  simp only [fetch16, memRead, if_pos (show a ≤ 0xFFF by omega), if_pos (show a + 1 ≤ 0xFFF by omega)]

/-- `Fetch16` past the end of memory faults. -/
theorem fetch16_fault (s : State) (a : Nat) (h : 0xFFF ≤ a) : fetch16 s a = .error .memRange := by
  unfold fetch16 memRead
  by_cases ha : a ≤ 0xFFF
  · simp only [if_pos ha, if_neg (show ¬ a + 1 ≤ 0xFFF by omega)]
  · simp only [if_neg ha]

/-- The three ways a fetch ends. -/
theorem fetchInstr_cases (s : State) :
    (0xFFF < s.pc.toNat ∧ fetchInstr s = .error .fetchRange) ∨
    (s.pc.toNat ≤ 0xFFF ∧ s.dispatch.handler s.pc.toNat = .illegal ∧ fetchInstr s = .ok .illegal) ∨
    (s.pc.toNat < 0xFFF ∧ s.dispatch.handler s.pc.toNat ≠ .illegal ∧
      fetchInstr s = .ok ((s.dispatch.handler s.pc.toNat).instr
        (s.mem.read s.pc.toNat ++ s.mem.read (s.pc.toNat + 1)))) ∨
    (s.pc.toNat = 0xFFF ∧ s.dispatch.handler s.pc.toNat ≠ .illegal ∧
      fetchInstr s = .error .memRange) := by
  unfold fetchInstr
  by_cases h1 : 0xFFF < s.pc.toNat
  · exact .inl ⟨h1, if_pos h1⟩
  rw [if_neg h1]
  by_cases h2 : s.dispatch.handler s.pc.toNat = .illegal
  · exact .inr (.inl ⟨by omega, h2, if_pos h2⟩)
  rw [if_neg h2]
  by_cases h3 : s.pc.toNat < 0xFFF
  · exact .inr (.inr (.inl ⟨h3, h2, by rw [fetch16_ok s _ h3]⟩))
  · exact .inr (.inr (.inr ⟨by omega, h2, by rw [fetch16_fault s _ (by omega)]⟩))

/-- A Blocked engine steps to itself. -/
theorem step_blocked (s : State) (h : s.blocked = true) : step s = .next s := by
  simp only [step, fetchNext, if_pos h]

/-- A Running engine whose fetch succeeds runs the instruction. -/
theorem step_fetched (s : State) (i : Instr) (h : s.blocked = false) (hi : fetchInstr s = .ok i) :
    step s = exec i s := by
  simp [step, fetchNext, h, hi]

/-- A Running engine whose fetch is Undefined faults. -/
theorem step_fetch_fault (s : State) (f : Fault) (h : s.blocked = false) (hf : fetchInstr s = .error f) :
    step s = .fault f := by
  simp [step, fetchNext, h, hf]

/-- A step that answers a next state: the engine was Blocked and nothing happened, or an instruction ran. -/
theorem step_cases {s t : State} (h : step s = .next t) :
    (s.blocked = true ∧ t = s) ∨
    (s.blocked = false ∧ ∃ i, fetchInstr s = .ok i ∧ exec i s = .next t) := by
  cases hb : s.blocked with
  | true =>
    rw [step_blocked s hb] at h
    exact .inl ⟨rfl, (Host.Outcome.next.inj h).symm⟩
  | false =>
    refine .inr ⟨rfl, ?_⟩
    cases hi : fetchInstr s with
    | error f => rw [step_fetch_fault s f hb hi] at h; exact nomatch h
    | ok i => exact ⟨i, rfl, by rwa [step_fetched s i hb hi] at h⟩

/-- A fetch does not look at the counter of draws. -/
@[simp] theorem fetchNext_asState (s : State) : fetchNext s.toElements.asState = fetchNext s := rfl

@[simp] theorem elementsOf_next (t : State) : elementsOf (.next t) = .next t.toElements := rfl
@[simp] theorem elementsOf_fault (f : Fault) : elementsOf (.fault f) = .fault f := rfl
@[simp] theorem elementsOf_refused (r : Refusal) : elementsOf (.refused r) = .refused r := rfl

/-- RND on the fourteen elements: the input, masked, and `PC + 2`. -/
theorem Elements.exec_rndVxKk (r : Byte) (x : Nibble) (kk : Byte) (e : Elements) :
    Elements.exec r (.rndVxKk x kk) e =
      .next { e with v := e.v.set x.toNat (r &&& kk), pc := e.pc + 2 } := rfl

/-- Every other instruction on the fourteen elements is `exec`. -/
theorem Elements.exec_eq_exec (r : Byte) {i : Instr} (e : Elements) (h : ∀ x kk, i ≠ .rndVxKk x kk) :
    Elements.exec r i e = elementsOf (Sys2Proof.Machine.exec i e.asState) := by
  cases i <;> first | rfl | exact absurd rfl (h _ _)

/-- The handler's fields cut from a word it decodes to are the word's own instruction. -/
theorem instr_of_decode (w : Word) : (decode w).instr w = decodeWord w := rfl

theorem fetchSlot_lt (s : State) : fetchSlot s < 0xFFF := by
  unfold fetchSlot
  split
  · assumption
  · decide

/-- The word placed is the instruction the very next step runs. -/
theorem step_placeWord (s : State) (w : Word) (hm : s.mem.wf) (hd : s.dispatch.wf) :
    step (placeWord s w) = exec (decodeWord w) (placeWord s w) := by
  have hslot := fetchSlot_lt s
  have hpc : (placeWord s w).pc.toNat = fetchSlot s := by
    show (BitVec.ofNat 16 (fetchSlot s)).toNat = _
    rw [BitVec.toNat_ofNat, Nat.mod_eq_of_lt (by omega)]
  have hh : (placeWord s w).dispatch.handler (fetchSlot s) = decode w := by
    rw [placeWord, DispatchTable.handler_set hd, if_pos rfl]
  have hwf := Memory.wf_write hm (show fetchSlot s ≤ 0xFFF by omega) (hiByte w)
  have hhi : (placeWord s w).mem.read (fetchSlot s) = hiByte w := by
    rw [placeWord, Memory.read_write_ne _ _ (by omega), Memory.read_write hm, if_pos rfl]
  have hlo : (placeWord s w).mem.read (fetchSlot s + 1) = loByte w := by
    rw [placeWord, Memory.read_write hwf, if_pos rfl]
  refine step_fetched _ _ rfl ?_
  rcases fetchInstr_cases (placeWord s w) with h | h | h | h
  · omega
  · obtain ⟨-, h2, h3⟩ := h
    rw [h3, ← instr_of_decode]
    rw [hpc, hh] at h2
    rw [h2]
    rfl
  · rw [h.2.2, hpc, hh, hhi, hlo, hiByte_append_loByte, instr_of_decode]
  · omega

end Sys2Proof.Machine
end

