-- ==== Sys2Proof/Laws/HostOps.lean ====
section
/-! SUPPORT. What the host operations can do, said once (40_dispatch_engine.md R121; 60_exceptions.md R253 to R255). -/

namespace Sys2Proof.Machine

/-- `compile`: the word at `WC` in `Mem` and `Dispatch`, then `WC + 2`; or a refusal and nothing. -/
theorem compile_cases (w : Word) (s : State) :
    (s.wc.toNat ≤ 0xFFE ∧ compile w s = .next { s with
      mem := (s.mem.write s.wc.toNat (hiByte w)).write (s.wc.toNat + 1) (loByte w)
      dispatch := s.dispatch.set s.wc.toNat (decode w)
      wc := s.wc + 2 }) ∨
    (0xFFE < s.wc.toNat ∧ compile w s = .refused .compileRange) := by
  unfold compile
  by_cases h : 0xFFE < s.wc.toNat
  · exact .inr ⟨h, if_pos h⟩
  · exact .inl ⟨by omega, if_neg h⟩

/-- An instruction is never refused: each answers a next state or one of the faults of R251. -/
theorem exec_ne_refused (i : Instr) (s : State) (r : Refusal) : exec i s ≠ .refused r := by
  have hnext : ∀ t : State, (.next t : Host.Outcome State Fault Refusal) ≠ .refused r := fun _ => nofun
  have hout : ∀ e : Except Fault State, outcomeOf e ≠ .refused r := by
    intro e; cases e <;> nofun
  cases i <;> first
    | exact hout _
    | exact hnext _
    | (simp only [exec, execLdVxK]; split <;> exact hnext _)

/-- A step is never refused. -/
theorem step_ne_refused (s : State) (r : Refusal) : step s ≠ .refused r := by
  unfold step
  split
  · exact nofun
  · exact nofun
  · exact exec_ne_refused _ _ _

/-- One iteration of `step(n)`. -/
theorem stepN_succ_next {s t : State} (n : Nat) (hb : s.blocked = false) (h : step s = .next t) :
    stepN (n + 1) s = stepN n t := by
  simp [stepN, hb, h]

theorem stepN_succ_fault {s : State} {f : Fault} (n : Nat) (hb : s.blocked = false) (h : step s = .fault f) :
    stepN (n + 1) s = .fault f := by
  simp [stepN, hb, h]

/-- One event of a history. -/
theorem hostRun_cons_next {op : HostOp} {s t : State} (ops : List HostOp) (h : hostExec op s = .next t) :
    hostRun (op :: ops) s = hostRun ops t := by
  simp [hostRun, h]

/-- A history goes on where its first part ended. -/
theorem hostRun_append {ops : List HostOp} {s t : State} (ops' : List HostOp) (h : hostRun ops s = .next t) :
    hostRun (ops ++ ops') s = hostRun ops' t := by
  induction ops generalizing s with
  | nil => rw [← Host.Outcome.next.inj h]; rfl
  | cons op ops ih =>
    rw [hostRun] at h
    rw [List.cons_append, hostRun]
    split at h
    · exact ih h
    · exact nomatch h
    · exact nomatch h

/-! ### The operations over the fourteen elements -/

/-- `compile` does not look at the counter of draws and leaves it as it was. -/
theorem compile_draws (w : Word) (s : State) (d : Nat) :
    elementsOf (compile w { s with draws := d }) = elementsOf (compile w s) ∧
      ∀ t, compile w s = .next t → t.draws = s.draws := by
  unfold compile
  by_cases h : 0xFFE < s.wc.toNat
  · simp [h]
  · simp only [if_neg h]
    exact ⟨rfl, fun t ht => by rw [← Host.Outcome.next.inj ht]⟩

/-- One iteration of `step(n)` over the elements. -/
theorem Elements.stepN_succ_next {r : Nat → Byte} {e e' : Elements} (n : Nat) (hb : e.blocked = false)
    (h : Elements.step (r 0) e = .next e') :
    Elements.stepN r (n + 1) e = Elements.stepN (fun k => r (k + 1)) n e' := by
  simp [Elements.stepN, hb, h]

theorem Elements.stepN_succ_fault {r : Nat → Byte} {e : Elements} {f : Fault} (n : Nat) (hb : e.blocked = false)
    (h : Elements.step (r 0) e = .fault f) : Elements.stepN r (n + 1) e = .fault f := by
  simp [Elements.stepN, hb, h]

/-- One event of a history over the elements. -/
theorem Elements.hostRun_cons_next {op : HostOp} {r : Nat → Byte} {e e' : Elements}
    (ops : List (HostOp × (Nat → Byte))) (h : Elements.hostExec r op e = .next e') :
    Elements.hostRun ((op, r) :: ops) e = Elements.hostRun ops e' := by
  simp [Elements.hostRun, h]

end Sys2Proof.Machine
end

