-- ==== Sys2Proof/Laws/Meanings.lean ====
section
/-! SUPPORT. What the meanings that may fault, wait or store can answer, said once each: the two ends of
`outcomeOf`, the key skips, the key wait, the stores, the block load and the draw. -/

namespace Sys2Proof.Machine

@[simp] theorem outcomeOf_eq_next (r : Except Fault State) (t : State) :
    outcomeOf r = .next t ↔ r = .ok t := by
  cases r <;> simp [outcomeOf]

@[simp] theorem outcomeOf_eq_fault (r : Except Fault State) (f : Fault) :
    outcomeOf r = .fault f ↔ r = .error f := by
  cases r <;> simp [outcomeOf]

theorem outcomeOf_ne_refused (r : Except Fault State) (e : Refusal) : outcomeOf r ≠ .refused e := by
  cases r <;> nofun

/-- A register numbers the key of its low nibble, or no key. -/
theorem keyOperand_cases (b : Byte) :
    (b.toNat ≤ 15 ∧ keyOperand b = .ok (BitVec.ofNat 4 b.toNat)) ∨
    (15 < b.toNat ∧ keyOperand b = .error .keyRange) := by
  unfold keyOperand
  by_cases h : b.toNat ≤ 15
  · exact .inl ⟨h, if_pos h⟩
  · exact .inr ⟨by omega, if_neg h⟩

/-- A key skip skips or not by the key its register numbers; or it faults. -/
theorem keySkip_cases (x : Nibble) (wanted : Bool) (s : State) :
    ((s.reg x).toNat ≤ 15 ∧
      keySkip x wanted s = .ok (s.skipIf (s.key (BitVec.ofNat 4 (s.reg x).toNat) == wanted))) ∨
    (15 < (s.reg x).toNat ∧ keySkip x wanted s = .error .keyRange) := by
  unfold keySkip
  rcases keyOperand_cases (s.reg x) with ⟨h, e⟩ | ⟨h, e⟩
  · exact .inl ⟨h, by rw [e]⟩
  · exact .inr ⟨h, by rw [e]⟩

/-- LD Vx,K waits, or consumes the key recorded (R233). -/
theorem execLdVxK_cases (x : Nibble) (s : State) :
    (s.lastKey = none ∧ execLdVxK x s = .next { s with blocked := true }) ∨
    (∃ k, s.lastKey = some k ∧
      execLdVxK x s = .next { (s.setReg x k.zext8) with lastKey := none, blocked := false }.advance) := by
  unfold execLdVxK
  cases h : s.lastKey with
  | none => exact .inl ⟨rfl, rfl⟩
  | some k => exact .inr ⟨k, rfl, rfl⟩

/-- A LD B,Vx that answers a next state has stored its three digits. -/
theorem exec_ldBVx_next {x : Nibble} {s t : State} (h : exec (.ldBVx x) s = .next t) :
    effAddr s 0 + 3 ≤ 0x1000 ∧
      t = { s with mem := s.mem.writes (effAddr s 0) (bcdDigits (s.reg x)) }.advance := by
  have h := (outcomeOf_eq_next _ _).1 h
  rcases storeBlock_cases (bcdDigits (s.reg x)) s (by simp [bcdDigits]) with ⟨h1, e⟩ | ⟨-, e⟩
  · rw [e] at h
    exact ⟨h1, (Except.ok.inj h).symm⟩
  · rw [e] at h
    exact nomatch h

/-- A LD [I],Vx that answers a next state has stored `V[0..x]`. -/
theorem exec_ldMiVx_next {x : Nibble} {s t : State} (h : exec (.ldMiVx x) s = .next t) :
    effAddr s 0 + (x.toNat + 1) ≤ 0x1000 ∧
      t = { s with mem := s.mem.writes (effAddr s 0) (s.regsUpTo (x.toNat + 1)) }.advance := by
  have hlen : (s.regsUpTo (x.toNat + 1)).length = x.toNat + 1 := by simp; omega
  have h := (outcomeOf_eq_next _ _).1 h
  rcases storeBlock_cases (s.regsUpTo (x.toNat + 1)) s (by rw [← List.length_pos_iff]; omega) with
    ⟨h1, e⟩ | ⟨-, e⟩
  · rw [e] at h
    exact ⟨hlen ▸ h1, (Except.ok.inj h).symm⟩
  · rw [e] at h
    exact nomatch h

/-- A LD Vx,[I] that answers a next state has loaded `V[0..x]`. -/
theorem exec_ldVxMi_next {x : Nibble} {s t : State} (h : exec (.ldVxMi x) s = .next t) :
    effAddr s 0 + (x.toNat + 1) ≤ 0x1000 ∧
      t = (s.setRegs 0 ((List.range (x.toNat + 1)).map fun k => s.mem.read (effAddr s 0 + k))).advance := by
  have h := (outcomeOf_eq_next _ _).1 h
  rcases loadBlock_cases (x.toNat + 1) s (by omega) with ⟨h1, e⟩ | ⟨-, e⟩
  · rw [e] at h
    exact ⟨h1, (Except.ok.inj h).symm⟩
  · rw [e] at h
    exact nomatch h

/-- A DRW that answers a next state has drawn its sprite. -/
theorem exec_drwVxVyN_next {x y n : Nibble} {s t : State} (h : exec (.drwVxVyN x y n) s = .next t) :
    (n.toNat = 0 ∨ effAddr s 0 + n.toNat ≤ 0x1000) ∧
      t = (drawState s x y ((List.range n.toNat).map fun k => s.mem.read (effAddr s 0 + k))).advance := by
  have h := (outcomeOf_eq_next _ _).1 h
  rcases drawBlock_cases x y n s with ⟨h1, e⟩ | ⟨-, -, e⟩
  · rw [e] at h
    exact ⟨h1, (Except.ok.inj h).symm⟩
  · rw [e] at h
    exact nomatch h

/-- A key skip that answers a next state moved `PC` and nothing else. -/
theorem exec_skpVx_next {x : Nibble} {s t : State} (h : exec (.skpVx x) s = .next t) :
    (s.reg x).toNat ≤ 15 ∧ t = s.skipIf (s.key (BitVec.ofNat 4 (s.reg x).toNat) == true) := by
  have h := (outcomeOf_eq_next _ _).1 h
  rcases keySkip_cases x true s with ⟨h1, e⟩ | ⟨-, e⟩
  · rw [e] at h
    exact ⟨h1, (Except.ok.inj h).symm⟩
  · rw [e] at h
    exact nomatch h

/-- A key skip that answers a next state moved `PC` and nothing else. -/
theorem exec_sknpVx_next {x : Nibble} {s t : State} (h : exec (.sknpVx x) s = .next t) :
    (s.reg x).toNat ≤ 15 ∧ t = s.skipIf (s.key (BitVec.ofNat 4 (s.reg x).toNat) == false) := by
  have h := (outcomeOf_eq_next _ _).1 h
  rcases keySkip_cases x false s with ⟨h1, e⟩ | ⟨-, e⟩
  · rw [e] at h
    exact ⟨h1, (Except.ok.inj h).symm⟩
  · rw [e] at h
    exact nomatch h

end Sys2Proof.Machine
end

