-- ==== Sys2Proof/Laws/PerInstr.lean ====
section
/-! SUPPORT. The opcode map, instruction by instruction (30_encoding.md R95): the canonical word of an instruction
is selected by the row of its own handler. -/

namespace Sys2Proof.Laws.OpcodeMap

/-- The canonical word of the instruction matches the mask and match of its row; Illegal has no row (R95). -/
def Statement (i : Instr) : Prop :=
  i.wellFormed = true → i = .illegal ∨ i.handler.selects (encode i) = true

/-- A row selects a word by its mask. -/
theorem of_row {i : Instr} {mask matchBits : Word} (hrow : i.handler.row = some (mask, matchBits))
    (h : encode i &&& mask = matchBits) : Statement i := by
  intro _
  right
  rw [Handler.selects, hrow]
  exact beq_iff_eq.2 h

theorem cls : Statement (.cls) :=
  of_row rfl (by decide)

theorem ret : Statement (.ret) :=
  of_row rfl (by decide)

theorem jpNnn (nnn : Addr12) : Statement (.jpNnn nnn) :=
  of_row rfl (formatA_and_family _ nnn)

theorem callNnn (nnn : Addr12) : Statement (.callNnn nnn) :=
  of_row rfl (formatA_and_family _ nnn)

theorem seVxKk (x : Nibble) (kk : Byte) : Statement (.seVxKk x kk) :=
  of_row rfl (formatXK_and_family _ x kk)

theorem sneVxKk (x : Nibble) (kk : Byte) : Statement (.sneVxKk x kk) :=
  of_row rfl (formatXK_and_family _ x kk)

theorem seVxVy (x y : Nibble) : Statement (.seVxVy x y) :=
  of_row rfl (formatXYN_and_family _ x y _)

theorem ldVxKk (x : Nibble) (kk : Byte) : Statement (.ldVxKk x kk) :=
  of_row rfl (formatXK_and_family _ x kk)

theorem addVxKk (x : Nibble) (kk : Byte) : Statement (.addVxKk x kk) :=
  of_row rfl (formatXK_and_family _ x kk)

theorem ldVxVy (x y : Nibble) : Statement (.ldVxVy x y) :=
  of_row rfl (formatXYN_and_nibble _ x y _)

theorem orVxVy (x y : Nibble) : Statement (.orVxVy x y) :=
  of_row rfl (formatXYN_and_nibble _ x y _)

theorem andVxVy (x y : Nibble) : Statement (.andVxVy x y) :=
  of_row rfl (formatXYN_and_nibble _ x y _)

theorem xorVxVy (x y : Nibble) : Statement (.xorVxVy x y) :=
  of_row rfl (formatXYN_and_nibble _ x y _)

theorem addVxVy (x y : Nibble) : Statement (.addVxVy x y) :=
  of_row rfl (formatXYN_and_nibble _ x y _)

theorem subVxVy (x y : Nibble) : Statement (.subVxVy x y) :=
  of_row rfl (formatXYN_and_nibble _ x y _)

theorem shrVx (x : Nibble) : Statement (.shrVx x) :=
  of_row rfl (formatXYN_and_nibble _ x _ _)

theorem subnVxVy (x y : Nibble) : Statement (.subnVxVy x y) :=
  of_row rfl (formatXYN_and_nibble _ x y _)

theorem shlVx (x : Nibble) : Statement (.shlVx x) :=
  of_row rfl (formatXYN_and_nibble _ x _ _)

theorem sneVxVy (x y : Nibble) : Statement (.sneVxVy x y) :=
  of_row rfl (formatXYN_and_family _ x y _)

theorem ldINnn (nnn : Addr12) : Statement (.ldINnn nnn) :=
  of_row rfl (formatA_and_family _ nnn)

theorem jpV0Nnn (nnn : Addr12) : Statement (.jpV0Nnn nnn) :=
  of_row rfl (formatA_and_family _ nnn)

theorem rndVxKk (x : Nibble) (kk : Byte) : Statement (.rndVxKk x kk) :=
  of_row rfl (formatXK_and_family _ x kk)

theorem drwVxVyN (x y n : Nibble) : Statement (.drwVxVyN x y n) :=
  of_row rfl (formatXYN_and_family _ x y n)

theorem skpVx (x : Nibble) : Statement (.skpVx x) :=
  of_row rfl (formatXK_and_byte _ x _)

theorem sknpVx (x : Nibble) : Statement (.sknpVx x) :=
  of_row rfl (formatXK_and_byte _ x _)

theorem ldVxDt (x : Nibble) : Statement (.ldVxDt x) :=
  of_row rfl (formatXK_and_byte _ x _)

theorem ldVxK (x : Nibble) : Statement (.ldVxK x) :=
  of_row rfl (formatXK_and_byte _ x _)

theorem ldDtVx (x : Nibble) : Statement (.ldDtVx x) :=
  of_row rfl (formatXK_and_byte _ x _)

theorem ldStVx (x : Nibble) : Statement (.ldStVx x) :=
  of_row rfl (formatXK_and_byte _ x _)

theorem addIVx (x : Nibble) : Statement (.addIVx x) :=
  of_row rfl (formatXK_and_byte _ x _)

theorem ldFVx (x : Nibble) : Statement (.ldFVx x) :=
  of_row rfl (formatXK_and_byte _ x _)

theorem ldBVx (x : Nibble) : Statement (.ldBVx x) :=
  of_row rfl (formatXK_and_byte _ x _)

theorem ldMiVx (x : Nibble) : Statement (.ldMiVx x) :=
  of_row rfl (formatXK_and_byte _ x _)

theorem ldVxMi (x : Nibble) : Statement (.ldVxMi x) :=
  of_row rfl (formatXK_and_byte _ x _)

theorem illegal : Statement .illegal := fun _ => .inl rfl

end Sys2Proof.Laws.OpcodeMap
end

