-- ==== Sys2Proof/Tests/Slice0.lean ====
section
/-! SUPPORT. Tests. Every expected value is taken from 95_test_vectors.md, or worked out by hand from the rule named.
A vector starts, as there, on a fresh machine with the one word compiled at 0x200, some registers set, and takes one
step. Then the well-formedness smoke tests, and a witness for the hypotheses of every obligation that has some. -/

namespace Sys2Proof.Tests

open Sys2Proof.Machine

/-- The start of a vector: the word where the first step after reset fetches, then the settings. -/
def start (w : Nat) (f : State → State := id) : State := f (State.reset.withFetchWord 16 w)

/-- What a view shows of the next state, if there is one. -/
def seen {α : Type} (g : State → α) : Host.Outcome State Fault Refusal → Option α
  | .next t => some (g t)
  | .fault _ => none
  | .refused _ => none

/-- The fault an outcome is, if it is one. -/
def faultOf : Host.Outcome State Fault Refusal → Option Fault
  | .fault f => some f
  | .next _ => none
  | .refused _ => none

/-- The refusal an outcome is, if it is one. -/
def refusalOf : Host.Outcome State Fault Refusal → Option Refusal
  | .refused r => some r
  | .next _ => none
  | .fault _ => none

/-- What a view shows after one step of a vector. -/
def after {α : Type} (w : Nat) (f : State → State) (g : State → α) : Option α := seen g (step (start w f))

/-! ### Decoding: a word of every constructor, written out from its encoding (95_test_vectors.md 2.1 to 2.6) -/

theorem test_decode_families_0_to_7 :
    decodeWord 0x00E0 = .cls ∧
    decodeWord 0x00EE = .ret ∧
    decodeWord 0x1350 = .jpNnn 0x350 ∧
    decodeWord 0x22F0 = .callNnn 0x2F0 ∧
    decodeWord 0x3299 = .seVxKk 0x2 0x99 ∧
    decodeWord 0x4299 = .sneVxKk 0x2 0x99 ∧
    decodeWord 0x5120 = .seVxVy 0x1 0x2 ∧
    decodeWord 0x63AB = .ldVxKk 0x3 0xAB ∧
    decodeWord 0x7360 = .addVxKk 0x3 0x60 := by decide

theorem test_decode_family_8 :
    decodeWord 0x8120 = .ldVxVy 0x1 0x2 ∧
    decodeWord 0x8121 = .orVxVy 0x1 0x2 ∧
    decodeWord 0x8122 = .andVxVy 0x1 0x2 ∧
    decodeWord 0x8123 = .xorVxVy 0x1 0x2 ∧
    decodeWord 0x8124 = .addVxVy 0x1 0x2 ∧
    decodeWord 0x8125 = .subVxVy 0x1 0x2 ∧
    decodeWord 0x8106 = .shrVx 0x1 ∧
    decodeWord 0x8127 = .subnVxVy 0x1 0x2 ∧
    decodeWord 0x810E = .shlVx 0x1 := by decide

theorem test_decode_families_9_to_E :
    decodeWord 0x9120 = .sneVxVy 0x1 0x2 ∧
    decodeWord 0xA300 = .ldINnn 0x300 ∧
    decodeWord 0xB300 = .jpV0Nnn 0x300 ∧
    decodeWord 0xC10F = .rndVxKk 0x1 0x0F ∧
    decodeWord 0xD014 = .drwVxVyN 0x0 0x1 0x4 ∧
    decodeWord 0xE19E = .skpVx 0x1 ∧
    decodeWord 0xE1A1 = .sknpVx 0x1 := by decide

theorem test_decode_family_F :
    decodeWord 0xF107 = .ldVxDt 0x1 ∧
    decodeWord 0xF10A = .ldVxK 0x1 ∧
    decodeWord 0xF115 = .ldDtVx 0x1 ∧
    decodeWord 0xF118 = .ldStVx 0x1 ∧
    decodeWord 0xF11E = .addIVx 0x1 ∧
    decodeWord 0xF129 = .ldFVx 0x1 ∧
    decodeWord 0xF133 = .ldBVx 0x1 ∧
    decodeWord 0xF155 = .ldMiVx 0x1 ∧
    decodeWord 0xF165 = .ldVxMi 0x1 := by decide

/-- The alias words of 2.1 (D3). -/
theorem test_decode_aliases :
    decodeWord 0x03EE = .ret ∧ decodeWord 0x5121 = .seVxVy 0x1 0x2 ∧ decodeWord 0x9127 = .sneVxVy 0x1 0x2 ∧
    decodeWord 0x8126 = .shrVx 0x1 ∧ decodeWord 0x812E = .shlVx 0x1 := by decide

/-- The words without a row of 2.1. -/
theorem test_decode_illegal :
    [0x0000, 0x00E1, 0x0123, 0x8128, 0x8129, 0x812A, 0x812B, 0x812C, 0x812D, 0x812F, 0xE19F, 0xE100, 0xF100,
      0xF175, 0xF1FF, 0xFFFF].all (fun w => decodeWord w == .illegal) = true := by decide

/-- Big-endian, two bytes, the rest handed on; a stream of one byte is refused by name. -/
theorem test_decode_bytes :
    decodeBytes [0x63, 0xAB, 0x00] = .ok (.ldVxKk 0x3 0xAB, [0x00]) ∧ decodeBytes [0x63] = .error .truncated := by
  exact ⟨rfl, rfl⟩

/-- A table word in the numbering of spec/opcode_table.json. -/
theorem test_decode_table_word :
    decodeTableWord 16 0xD125 = some (.drwVxVyN 0x1 0x2 0x5) ∧ decodeTableWord 16 0x0000 = some .illegal ∧
    decodeTableWord 24 0x0000 = none := by decide

/-! ### Control transfer (2.2) -/

theorem test_jp_odd :
    after 0x1201 (id) (fun t => t.pc) =
      some 0x201 := by decide

theorem test_jp_top :
    after 0x1FFF (id) (fun t => t.pc) =
      some 0xFFF := by decide

theorem test_call :
    after 0x22F0 (id) (fun t => (t.pc, t.sp, t.stack[0])) =
      some (0x2F0, 1, 0x202) := by decide

theorem test_call_wraps :
    after 0x22F0 (fun s => { s with sp := 0xF }) (fun t => (t.pc, t.sp, t.stack[15])) =
      some (0x2F0, 0, 0x202) := by decide

theorem test_ret :
    after 0x00EE (fun s => { s with sp := 1, stack := s.stack.set 0 0x345 }) (fun t => (t.pc, t.sp, t.stack[0])) =
      some (0x345, 0, 0x345) := by decide

theorem test_ret_wraps :
    after 0x00EE (fun s => { s with stack := s.stack.set 15 0x456 }) (fun t => (t.pc, t.sp)) =
      some (0x456, 0xF) := by decide

theorem test_jp_v0 :
    after 0xB300 (fun s => s.setReg 0 0x04) (fun t => t.pc) =
      some 0x304 := by decide

theorem test_jp_v0_above_memory :
    after 0xBFFF (fun s => s.setReg 0 0xFF) (fun t => t.pc) =
      some 0x10FE := by decide

theorem test_se_vx_kk :
    after 0x3299 (fun s => s.setReg 2 0x99) (fun t => t.pc) =
      some 0x204 := by decide

theorem test_se_vx_kk_not :
    after 0x3299 (fun s => s.setReg 2 0x98) (fun t => t.pc) =
      some 0x202 := by decide

theorem test_sne_vx_kk :
    after 0x4299 (fun s => s.setReg 2 0x98) (fun t => t.pc) =
      some 0x204 := by decide

theorem test_sne_vx_kk_not :
    after 0x4299 (fun s => s.setReg 2 0x99) (fun t => t.pc) =
      some 0x202 := by decide

theorem test_se_vx_vy :
    after 0x5120 (fun s => (s.setReg 1 0x07).setReg 2 0x07) (fun t => t.pc) =
      some 0x204 := by decide

theorem test_se_vx_vy_not :
    after 0x5120 (fun s => (s.setReg 1 0x07).setReg 2 0x08) (fun t => t.pc) =
      some 0x202 := by decide

theorem test_sne_vx_vy :
    after 0x9120 (fun s => (s.setReg 1 0x07).setReg 2 0x08) (fun t => t.pc) =
      some 0x204 := by decide

theorem test_sne_vx_vx :
    after 0x9330 (fun s => s.setReg 3 0x09) (fun t => t.pc) =
      some 0x202 := by decide

theorem test_illegal :
    after 0x0123 (id) (fun t => (t.pc, t.v, t.sp)) =
      some (0x202, Vector.replicate 16 0x00, 0) := by decide

/-! ### Register loads and the ALU (2.3) -/

theorem test_ld_vx_kk :
    after 0x63AB (id) (fun t => (t.reg 3, t.pc)) =
      some (0xAB, 0x202) := by decide

theorem test_add_vx_kk_no_carry_flag :
    after 0x7360 (fun s => s.setReg 3 0xAB) (fun t => (t.reg 3, t.reg 15)) =
      some (0x0B, 0x00) := by decide

theorem test_add_vf_kk_wraps :
    after 0x7F01 (fun s => s.setReg 15 0xFF) (fun t => t.reg 15) =
      some 0x00 := by decide

theorem test_ld_vx_vy :
    after 0x8120 (fun s => s.setReg 2 0x5A) (fun t => (t.reg 1, t.reg 2)) =
      some (0x5A, 0x5A) := by decide

theorem test_or_keeps_vf :
    after 0x8121 (fun s => ((s.setReg 1 0x0F).setReg 2 0xF0).setReg 15 0x55) (fun t => (t.reg 1, t.reg 15)) =
      some (0xFF, 0x55) := by decide

theorem test_and_keeps_vf :
    after 0x8122 (fun s => ((s.setReg 1 0x3C).setReg 2 0x0F).setReg 15 0x55) (fun t => (t.reg 1, t.reg 15)) =
      some (0x0C, 0x55) := by decide

theorem test_xor_keeps_vf :
    after 0x8123 (fun s => ((s.setReg 1 0xFF).setReg 2 0x0F).setReg 15 0x55) (fun t => (t.reg 1, t.reg 15)) =
      some (0xF0, 0x55) := by decide

theorem test_xor_itself :
    after 0x8113 (fun s => s.setReg 1 0xAA) (fun t => t.reg 1) =
      some 0x00 := by decide

/-- S4. -/
theorem test_add_carry :
    after 0x8124 (fun s => (s.setReg 1 0x80).setReg 2 0x80) (fun t => (t.reg 1, t.reg 15)) =
      some (0x00, 0x01) := by decide

/-- D12. -/
theorem test_add_vf_flag_prevails :
    after 0x8F14 (fun s => (s.setReg 15 0xF0).setReg 1 0x20) (fun t => t.reg 15) =
      some 0x01 := by decide

/-- S5. -/
theorem test_sub_borrow :
    after 0x8125 (fun s => (s.setReg 1 0x02).setReg 2 0x03) (fun t => (t.reg 1, t.reg 15)) =
      some (0xFF, 0x00) := by decide

theorem test_sub_equal_is_borrow :
    after 0x8125 (fun s => ((s.setReg 1 0x42).setReg 2 0x42).setReg 15 0x01) (fun t => (t.reg 1, t.reg 15)) =
      some (0x00, 0x00) := by decide

theorem test_shr_ignores_y :
    after 0x8126 (fun s => (s.setReg 1 0x05).setReg 2 0xFF) (fun t => (t.reg 1, t.reg 15, t.reg 2)) =
      some (0x02, 0x01, 0xFF) := by decide

/-- D12. -/
theorem test_shr_vf_result_prevails :
    after 0x8F06 (fun s => s.setReg 15 0x05) (fun t => t.reg 15) =
      some 0x02 := by decide

theorem test_subn :
    after 0x8127 (fun s => (s.setReg 1 0x02).setReg 2 0x03) (fun t => (t.reg 1, t.reg 15)) =
      some (0x01, 0x01) := by decide

/-- D12. -/
theorem test_subn_with_vf :
    after 0x81F7 (fun s => (s.setReg 1 0x10).setReg 15 0x30) (fun t => (t.reg 1, t.reg 15)) =
      some (0x20, 0x01) := by decide

theorem test_shl :
    after 0x810E (fun s => s.setReg 1 0x81) (fun t => (t.reg 1, t.reg 15)) =
      some (0x02, 0x01) := by decide

theorem test_shl_no_carry :
    after 0x810E (fun s => (s.setReg 1 0x40).setReg 15 0x01) (fun t => (t.reg 1, t.reg 15)) =
      some (0x80, 0x00) := by decide

/-! ### The address register and memory (2.4) -/

theorem test_ld_i :
    after 0xAFFF (id) (fun t => t.i) =
      some 0x0FFF := by decide

theorem test_add_i_past_memory :
    after 0xF11E (fun s => { s with i := 0x0FFF }.setReg 1 0x01) (fun t => (t.i, t.reg 15)) =
      some (0x1000, 0x00) := by decide

theorem test_add_i_wraps :
    after 0xF11E (fun s => { s with i := 0xFFFF }.setReg 1 0x02) (fun t => t.i) =
      some 0x0001 := by decide

theorem test_ld_f :
    after 0xF129 (fun s => s.setReg 1 0x0A) (fun t => t.i) =
      some 0x0032 := by decide

theorem test_ld_f_no_mask :
    after 0xF129 (fun s => s.setReg 1 0xFF) (fun t => t.i) =
      some 0x04FB := by decide

theorem test_ld_b :
    after 0xF133 (fun s => { s with i := 0xFFD }.setReg 1 0x7B) (fun t => (t.mem.read 0xFFD, t.mem.read 0xFFE, t.mem.read 0xFFF, t.i)) =
      some (0x01, 0x02, 0x03, 0xFFD) := by decide

theorem test_ld_b_past_memory :
    faultOf (step (start 0xF133 (fun s => { s with i := 0xFFE }.setReg 1 0x7B))) = some .memRange := by decide

theorem test_ld_mi :
    after 0xF255 (fun s => (((({ s with i := 0x300 }.setReg 0 1).setReg 1 2).setReg 2 3).setReg 3 4)) (fun t => ([0x300, 0x301, 0x302, 0x303].map t.mem.read, t.i)) =
      some ([1, 2, 3, 0], 0x300) := by decide

theorem test_ld_mi_past_memory :
    faultOf (step (start 0xF155 (fun s => { s with i := 0xFFF }))) = some .memRange := by decide

theorem test_ld_vx_mi_own_code :
    after 0xF165 (fun s => { s with i := 0x200 }) (fun t => (t.reg 0, t.reg 1, t.reg 2, t.i)) =
      some (0xF1, 0x65, 0x00, 0x200) := by decide

/-- G2. -/
theorem test_ld_vx_mi_glyph :
    after 0xF465 (id) (fun t => t.regsUpTo 5) =
      some [0xF0, 0x90, 0x90, 0x90, 0xF0] := by decide

/-! ### The screen (2.5) -/

theorem test_cls_keeps_vf :
    after 0x00E0 (fun s => { s with screen := s.screen.toggle 7 3 }.setReg 15 0x09) (fun t => (t.screen.pixel 7 3, t.reg 15)) =
      some (false, 0x09) := by decide

/-- G3. -/
theorem test_drw_wraps :
    after 0xD011 (fun s => ({ s with i := 0x300, mem := s.mem.write 0x300 0xF0 }.setReg 0 0x3E).setReg 1 0x1F) (fun t => ([61, 62, 63, 0, 1, 2].map (t.screen.pixel · 31), t.reg 15)) =
      some ([false, true, true, true, true, false], 0x00) := by decide

/-- A collision; and n = 0 with I above memory, D22. -/
theorem test_drw_collides_and_no_rows :
    after 0xD011 (fun s => { s with i := 0x300, mem := s.mem.write 0x300 0x80, screen := s.screen.toggle 0 0 })
      (fun t => (t.screen.pixel 0 0, t.reg 15)) = some (false, 0x01) ∧
    after 0xD010 (fun s => { s with i := 0x2000 }.setReg 15 0x01) (fun t => t.reg 15) = some 0x00 := by decide

/-! ### Keys, timers, random (2.6) -/

theorem test_skp :
    after 0xE19E (fun s => (s.setReg 1 0x05).setKey 5 true) (fun t => t.pc) =
      some 0x204 := by decide

theorem test_skp_no_such_key :
    faultOf (step (start 0xE19E (fun s => s.setReg 1 0x10))) = some .keyRange := by decide

theorem test_sknp :
    after 0xE1A1 (fun s => s.setReg 1 0x05) (fun t => t.pc) =
      some 0x204 := by decide

theorem test_sknp_no_such_key :
    faultOf (step (start 0xE1A1 (fun s => s.setReg 1 0xFF))) = some .keyRange := by decide

theorem test_ld_vx_k_waits :
    after 0xF30A (fun s => s.setKey 4 true) (fun t => (t.blocked, t.pc, t.reg 3)) =
      some (true, 0x200, 0x00) := by decide

theorem test_ld_vx_k_consumes :
    after 0xF30A (fun s => { s with lastKey := some 0 }.setReg 3 0x09) (fun t => (t.reg 3, t.lastKey, t.pc)) =
      some (0x00, none, 0x202) := by decide

theorem test_ld_vx_dt :
    after 0xF207 (fun s => { s with dt := 0x39 }) (fun t => (t.reg 2, t.dt)) =
      some (0x39, 0x39) := by decide

theorem test_ld_dt_vx :
    after 0xF015 (fun s => s.setReg 0 0x3C) (fun t => (t.dt, t.st)) =
      some (0x3C, 0x00) := by decide

theorem test_ld_st_vx :
    after 0xF018 (fun s => s.setReg 0 0x05) (fun t => (t.st, t.dt)) =
      some (0x05, 0x00) := by decide

/-- S9, for the one draw there is: the free byte, masked. -/
theorem test_rnd : after 0xC10F id (fun t => (t.reg 1, t.pc, t.draws)) = some (Config.rnd 0 &&& 0x0F, 0x202, 1) := rfl

/-- C10F with draw A7: V1 = 07. C1F0 with draw FF: V1 = F0. -/
theorem test_rnd_input :
    (match Elements.step 0xA7 (start 0xC10F).toElements with | .next e => some e.v[1] | _ => none) = some 0x07 ∧
    (match Elements.step 0xFF (start 0xC1F0).toElements with | .next e => some e.v[1] | _ => none) = some 0xF0 := by
  decide

/-- The host's operations over the fourteen elements: load C1FF FFFF, then two steps with inputs A7 and 00. -/
theorem test_host_with_inputs :
    (match Elements.hostRun [(.load [0xC1, 0xFF, 0xFF, 0xFF], fun _ => 0), (.step 2, fun k => if k = 0 then 0xA7 else 0x00)]
        Elements.reset with | .next e => some (e.v[1], e.pc) | _ => none) = some (0xA7, 0x204) := by
  decide

/-! ### The engine and the host's operations (2.7) -/

theorem test_fetch_past_memory : faultOf (step { State.reset with pc := 0x1000 }) = some .fetchRange := by decide

theorem test_fetch_last_byte : seen (fun t => t.pc) (step { State.reset with pc := 0xFFF }) = some 0x1001 := by
  decide

/-- P4: the compiled handler LD Vx,kk runs on the bytes stored later, 12 34. -/
theorem test_stored_code_runs_old_handler :
    after 0x6AFF (fun s => { s with mem := (s.mem.write 0x200 0x12).write 0x201 0x34 })
      (fun t => (t.reg 2, t.reg 0xA, t.pc)) = some (0x34, 0x00, 0x202) := by decide

theorem test_blocked_step : seen (fun t => t.pc) (stepN 5 (start 0x6A12 fun s => { s with blocked := true })) =
    some 0x200 := by decide

theorem test_compile_top :
    seen (fun t => ([0xFFE, 0xFFF].map t.mem.read, t.dispatch.handler 0xFFE, t.wc, t.pc))
      (compile 0x1234 { State.reset with wc := 0xFFE }) = some ([0x12, 0x34], .jpNnn, 0x1000, 0x200) := by decide

theorem test_compile_full : refusalOf (compile 0x1234 { State.reset with wc := 0x1000 }) = some .compileRange := by
  decide

theorem test_load :
    seen (fun t => ([0x200, 0x201].map t.mem.read, t.dispatch.handler 0x200, t.wc, t.pc, t.reg 3, t.blocked))
      (load [0x12, 0x00] ({ State.reset with blocked := true }.setReg 3 7)) =
    some ([0x12, 0x00], .jpNnn, 0x202, 0x200, 0, false) := by decide

theorem test_load_odd : refusalOf (load [0x60, 0x05, 0x61] State.reset) = some .loadOdd := by decide

theorem test_tick :
    (({ State.reset with dt := 0x3C, st := 0x05 }.tick.tick.tick.dt = 0x39) ∧
      { State.reset with dt := 0x3C, st := 0x05 }.tick.st = 0x05) ∧
    ({ State.reset with dt := 0x00 }.tick.dt = 0x00) := by decide

theorem test_key_pressed :
    (({ State.reset with blocked := true, lastKey := some 3 }.keyPressed (some 7)).key 7,
      ({ State.reset with blocked := true, lastKey := some 3 }.keyPressed (some 7)).lastKey,
      ({ State.reset with blocked := true, lastKey := some 3 }.keyPressed (some 7)).blocked) =
    (true, some 7, false) := by decide

theorem test_key_released :
    (({ State.reset.setKey 7 true with blocked := true, lastKey := some 7 }.keyReleased (some 7)).key 7,
      ({ State.reset.setKey 7 true with blocked := true, lastKey := some 7 }.keyReleased (some 7)).lastKey,
      ({ State.reset.setKey 7 true with blocked := true, lastKey := some 7 }.keyReleased (some 7)).blocked) =
    (false, some 7, true) := by decide

/-- The font of R68 lies at its place; the byte after it is the reset fill. -/
theorem test_reset_memory :
    [0x000, 0x001, 0x04B, 0x04F, 0x050, 0xFFF].map State.reset.mem.read = [0xF0, 0x90, 0xF0, 0x80, 0x00, 0x00] := by
  decide

/-- The last font byte is 0x80 (R68): writing it back leaves nothing listed. -/
theorem test_write_default_removes_entry : ((State.reset.mem.write 0x04F 0x11).write 0x04F 0x80) = [] := by decide

/-- R7, R39: RESET_FILL is 0 in every width, and ADD VF,VF runs under VF_OPERAND_POLICY = literal (R172). -/
theorem test_parameters :
    (State.reset.reg 0xF, State.reset.i, State.reset.sp, State.reset.key 0) = (0x00, 0x0000, 0x0, false) ∧
    refusalOf (exec (.addVxVy 0xF 0xF) State.reset) = none := by decide

/-! ### Well-formedness: an ill-formed term for each check -/

theorem test_image_odd_refused : imageEven [0x60, 0x05, 0x61] = false := by decide

theorem test_image_too_long_refused : imageFits (List.replicate 3586 0x00) = false := by
  rw [imageFits, List.length_replicate]; rfl

theorem test_memory_unsorted_refused : ¬ Memory.wf [(0x301, 0x01), (0x300, 0x02)] := by decide

theorem test_memory_repeated_refused : ¬ Memory.wf [(0x300, 0x01), (0x300, 0x02)] := by decide

theorem test_memory_default_entry_refused : ¬ Memory.wf [(0x000, 0xF0)] := by decide

theorem test_memory_above_range_refused : ¬ Memory.wf [(0x1000, 0x01)] := by decide

theorem test_dispatch_illegal_entry_refused : ¬ DispatchTable.wf [(0x200, .illegal)] := by decide

theorem test_reset_canonical : Memory.wf State.reset.mem ∧ DispatchTable.wf State.reset.dispatch := by decide

/-! ### Witnesses: a state and operands that meet the hypotheses of an obligation

Each is named after its obligation. Where the conclusion has clauses with hypotheses of their own there is a witness
for each, at the boundary of its range. -/

/-- The empty machine with `PC` at `a`: no run is needed to see that it meets the invariant. -/
theorem inv_at (a : Word) (h : a.toNat ≤ 0x10FE) : { State.reset with pc := a }.Inv := by
  refine ⟨⟨⟨List.Pairwise.nil, by simp⟩, ⟨List.Pairwise.nil, by simp⟩⟩,
    (show State.reset.CursorInRange from ⟨by decide, by decide, by decide⟩), fun _ hne => absurd rfl hne, h, ?_⟩
  intro k
  simp

/-- A word compiled at the last place of memory, with `PC` there. -/
def lastPlace : State :=
  { State.reset with pc := 0xFFE, wc := 0x1000, mem := [(0xFFE, 0x6A), (0xFFF, 0x12)], dispatch := [(0xFFE, .ldVxKk)] }

theorem witness_StepRunsDispatchedInstruction :
    lastPlace.blocked = false ∧ lastPlace.pc.toNat < 0xFFF ∧ lastPlace.dispatch.handler 0xFFE ≠ .illegal ∧
    decodeBytes [lastPlace.mem.read 0xFFE, lastPlace.mem.read 0xFFF] = .ok (.ldVxKk 0xA 0x12, []) ∧
    lastPlace.dispatch.handler 0xFFE = (Instr.ldVxKk 0xA 0x12).handler :=
  ⟨rfl, by decide, by decide, rfl, rfl⟩

theorem witness_StepRunsDispatchedInstruction_illegal :
    State.reset.blocked = false ∧ State.reset.pc.toNat < 0xFFF ∧
    decodeBytes [State.reset.mem.read 0x200, State.reset.mem.read 0x201] = .ok (.illegal, []) ∧
    State.reset.dispatch.handler 0x200 = Instr.illegal.handler :=
  ⟨rfl, by decide, rfl, rfl⟩

theorem witness_StepLoopStopsWhenBlocked :
    { State.reset with blocked := true }.blocked = true ∧
    { State.reset with pc := 0x1000 }.blocked = false ∧ 0xFFF < { State.reset with pc := 0x1000 }.pc.toNat ∧
    State.reset.blocked = false ∧ step State.reset = .next { State.reset with pc := 0x202 } :=
  ⟨rfl, rfl, by decide, rfl, rfl⟩

theorem witness_FetchAboveMemoryFaults :
    { State.reset with pc := 0x1000 }.blocked = false ∧ 0xFFF < { State.reset with pc := 0x1000 }.pc.toNat := by
  decide

theorem witness_StepSumIsStepThenStep :
    stepN 2 State.reset = .next { State.reset with pc := 0x204 } ∧
    stepN 1 { State.reset with pc := 0x1000 } = .fault .fetchRange :=
  ⟨rfl, rfl⟩

theorem witness_OnlyKeyWaitBlocks :
    State.reset.blocked = false ∧ exec (.ldVxK 3) State.reset = .next { State.reset with blocked := true } ∧
    exec .ret State.reset = .next { State.reset with pc := 0x000, sp := 0xF } :=
  ⟨rfl, rfl, rfl⟩

theorem witness_IllegalAdvancesAndNothingElse :
    { State.reset with pc := 0xFFF }.blocked = false ∧ { State.reset with pc := 0xFFF }.pc.toNat ≤ 0xFFF ∧
    { State.reset with pc := 0xFFF }.dispatch.handler 0xFFF = .illegal ∧
    ∀ h : Handler, h.selects 0xF1FF = false :=
  ⟨rfl, by decide, rfl, fun h => by cases h <;> rfl⟩

theorem witness_UncompiledAddressRunsAsNoOp_odd :
    { State.reset with pc := 0xFFF }.Inv ∧ { State.reset with pc := 0xFFF }.blocked = false ∧
    { State.reset with pc := 0xFFF }.pc.toNat ≤ 0xFFF ∧ { State.reset with pc := 0xFFF }.pc.toNat % 2 = 1 :=
  ⟨inv_at 0xFFF (by decide), rfl, by decide, by decide⟩

theorem witness_UncompiledAddressRunsAsNoOp_low :
    { State.reset with pc := 0x1FE }.Inv ∧ { State.reset with pc := 0x1FE }.blocked = false ∧
    { State.reset with pc := 0x1FE }.pc.toNat < 0x200 :=
  ⟨inv_at 0x1FE (by decide), rfl, by decide⟩

theorem witness_UncompiledAddressRunsAsNoOp_high :
    { State.reset with pc := 0x202 }.Inv ∧ { State.reset with pc := 0x202 }.blocked = false ∧
    { State.reset with pc := 0x202 }.wc.toNat ≤ { State.reset with pc := 0x202 }.pc.toNat :=
  ⟨inv_at 0x202 (by decide), rfl, by decide⟩

theorem witness_DecodeOfEncodeIsIdentity :
    (Instr.drwVxVyN 0xF 0xF 0xF).wellFormed = true ∧ Instr.illegal.wellFormed = true := by decide

theorem witness_DecoderFollowsOpcodeMap : Handler.ldVxMi ≠ .illegal := by decide

theorem witness_IgnoredBitsAreIgnored :
    Instr.shrVx 1 ≠ .illegal ∧ (0x81F6 : Word) &&& ~~~(Instr.shrVx 1).handler.ignoredBits = encode (.shrVx 1) := by
  decide

theorem witness_ReturnUndoesCall :
    exec (.callNnn 0xFFF) { State.reset with sp := 0xF } =
      .next { State.reset with pc := 0xFFF, sp := 0, stack := State.reset.stack.set 15 0x202 } := rfl

theorem witness_SeventeenthPushOverwritesOldest : (List.replicate 16 (0x202 : Word)).length = 16 ∧ (0xF : Nibble) ≠ 0 := by
  decide

theorem witness_AddWritesSumAndCarry : (0xE : Nibble) ≠ 15 := by decide

theorem witness_SubnIsSubExchanged :
    (1 : Nibble) ≠ 0xE ∧ (1 : Nibble) ≠ 15 ∧ (0xE : Nibble) ≠ 15 ∧
    exec (.subnVxVy 1 0xE) State.reset = .next { State.reset with pc := 0x202 } ∧
    exec (.subVxVy 1 0xE) ((State.reset.setReg 1 (State.reset.reg 0xE)).setReg 0xE (State.reset.reg 1)) =
      .next { State.reset with pc := 0x202 } :=
  ⟨by decide, by decide, by decide, rfl, rfl⟩

theorem witness_BcdStoresThreeDigits :
    { State.reset with i := 0xFFD }.mem.wf ∧ effAddr { State.reset with i := 0xFFD } 2 ≤ 0xFFF := by decide

theorem witness_BlockStoreWritesRegisters :
    { State.reset with i := 0xFF0 }.mem.wf ∧ effAddr { State.reset with i := 0xFF0 } (0xF : Nibble).toNat ≤ 0xFFF ∧
    (0xF : Nibble).toNat ≤ (0xF : Nibble).toNat := by decide

theorem witness_BlockLoadReadsRegisters :
    effAddr { State.reset with i := 0xFFF } (0 : Nibble).toNat ≤ 0xFFF ∧ (0 : Nibble).toNat ≤ (0 : Nibble).toNat ∧
    (0 : Nibble).toNat < (1 : Nibble).toNat := by decide

theorem witness_BlockStoreThenLoadRestores :
    { State.reset with i := 0xFFF }.mem.wf ∧
    exec (.ldMiVx 0) { State.reset with i := 0xFFF } = .next { State.reset with i := 0xFFF, pc := 0x202 } ∧
    exec (.ldVxMi 0) { State.reset with i := 0xFFF, pc := 0x202 } = .next { State.reset with i := 0xFFF, pc := 0x204 } :=
  ⟨by decide, rfl, rfl⟩

/-- Every reason of the catalogue that an instruction raises is met, at the first value that raises it; and the last
value before it raises none. -/
theorem witness_FaultsAreTheCatalogue :
    undefinedReason (.ldBVx 0) { State.reset with i := 0xFFE } = some .memRange ∧
    undefinedReason (.ldBVx 0) { State.reset with i := 0xFFD } = none ∧
    undefinedReason (.drwVxVyN 0 0 1) { State.reset with i := 0x1000 } = some .memRange ∧
    undefinedReason (.drwVxVyN 0 0 0) { State.reset with i := 0x1000 } = none ∧
    undefinedReason (.skpVx 0) (State.reset.setReg 0 0x10) = some .keyRange ∧
    undefinedReason (.sknpVx 0) (State.reset.setReg 0 0x0F) = none := by decide

theorem witness_DrawXorsSpriteAndReportsCollision :
    (0 : Nibble).toNat = 0 ∧ effAddr { State.reset with i := 0xFFF } ((1 : Nibble).toNat - 1) ≤ 0xFFF := by decide

/-- Glyph 0 at the origin: the sprite covers (0, 0), not (0, 5); on a screen with (0, 0) set the draw collides. -/
theorem witness_DrawXorsSpriteAndReportsCollision_covers :
    SpriteCovers State.reset 0 0 5 0 0 ∧ ¬ SpriteCovers State.reset 0 0 5 0 5 ∧
    (∃ px < 64, ∃ py < 32, SpriteCovers { State.reset with screen := Screen.blank.toggle 0 0 } 0 0 5 px py ∧
      { State.reset with screen := Screen.blank.toggle 0 0 }.screen.pixel px py = true) ∧
    ¬ ∃ px < 64, ∃ py < 32, SpriteCovers State.reset 0 0 5 px py ∧ State.reset.screen.pixel px py = true := by
  refine ⟨⟨0, by decide, 0, by decide, by decide, by decide, by decide⟩, ?_,
    ⟨0, by decide, 0, by decide, ⟨0, by decide, 0, by decide, by decide, by decide, by decide⟩, by decide⟩, ?_⟩
  · rintro ⟨r, hr, _, _, _, _, hy⟩
    have hr : r < 5 := hr
    have hy : r % 32 = 5 := by simpa [State.reg] using hy
    omega
  · rintro ⟨px, _, py, _, _, h⟩
    rw [show State.reset.screen = Screen.blank from rfl, Screen.pixel_blank] at h
    exact nomatch h

theorem witness_DrawTwiceRestoresScreen :
    (0 : Nibble) ≠ 15 ∧ (0xE : Nibble) ≠ 15 ∧
    exec (.drwVxVyN 0 0xE 0) State.reset = .next { State.reset with pc := 0x202 } :=
  ⟨by decide, by decide, rfl⟩

theorem witness_KeySkipsTestKeys :
    (State.reset.setReg 1 0x0F).reg 1 = (0xF : Nibble).zext8 ∧ 15 < ((State.reset.setReg 1 0x10).reg 1).toNat := by
  decide

theorem witness_KeyWaitBlocksOrConsumes :
    State.reset.lastKey = none ∧ { State.reset with lastKey := some 0xF }.lastKey = some 0xF := by decide

theorem witness_KeyPressWakesKeyWait :
    (start 0xF30A).blocked = false ∧ (start 0xF30A).lastKey = none ∧ fetchInstr (start 0xF30A) = .ok (.ldVxK 3) :=
  ⟨rfl, rfl, rfl⟩

theorem witness_OnlyWritersChangeAnElement :
    exec (.ldINnn 0xFFF) State.reset = .next { State.reset with i := 0xFFF, pc := 0x202 } ∧
    Part.mem.writtenBy (.ldINnn 0xFFF) = false ∧ Part.writtenBy .wc (.ldINnn 0xFFF) = false :=
  ⟨rfl, rfl, rfl⟩

theorem witness_OnlyWritersChangeARegister :
    exec (.ldVxKk 0 0xFF) State.reset = .next (State.reset.setReg 0 0xFF).advance ∧
    (State.reset.setReg 0 0xFF).advance.reg 0 ≠ State.reset.reg 0 :=
  ⟨rfl, by decide⟩

theorem witness_FlagIsZeroOrOne :
    exec (.addVxVy 0xE 15) State.reset = .next { State.reset with pc := 0x202 } ∧
    writesFlag (.addVxVy 0xE 15) = true ∧ writesResult (.addVxVy 0xE 15) 15 = false :=
  ⟨rfl, rfl, rfl⟩

theorem witness_SoundTimerAndCursorAreNotRead :
    exec (.ldStVx 0) State.reset = .next { State.reset with pc := 0x202 } ∧
    exec (.ldBVx 0) { State.reset with i := 0xFFE } = .fault .memRange :=
  ⟨rfl, rfl⟩

theorem witness_OnlyRandomReadsTheDraws :
    (∀ x kk, Instr.ldStVx 0 ≠ .rndVxKk x kk) ∧
    exec (.ldStVx 0) State.reset = .next { State.reset with pc := 0x202 } ∧
    (∀ x kk, Instr.skpVx 0 ≠ .rndVxKk x kk) ∧
    exec (.skpVx 0) (State.reset.setReg 0 0x10) = .fault .keyRange :=
  ⟨nofun, rfl, nofun, rfl⟩

theorem witness_CoreIsTheMachineWithInputs :
    step (start 0xC100) = .next { (drawInto (Config.rnd 0) 1 0x00 (start 0xC100)) with draws := 1 } ∧
    fetchNext (start 0xC100) = .ok (some (.rndVxKk 1 0x00)) ∧
    step State.reset = .next { State.reset with pc := 0x202 } ∧
    (∀ x kk, fetchNext State.reset ≠ .ok (some (.rndVxKk x kk))) :=
  ⟨rfl, rfl, rfl, fun _ _ => by rw [show fetchNext State.reset = .ok (some .illegal) from rfl]; nofun⟩

theorem witness_RandomInputGivesEveryMaskedByte :
    (0xA0 : Byte) &&& ~~~(0xF0 : Byte) = 0 ∧
    Elements.exec 0xA7 (.rndVxKk 1 0xF0) State.reset.toElements =
      .next ((State.reset.setReg 1 0xA0).advance).toElements :=
  ⟨by decide, rfl⟩

theorem witness_CompileWritesWordAndHandler :
    State.reset.mem.wf ∧ State.reset.dispatch.wf ∧ { State.reset with wc := 0xFFE }.wc.toNat ≤ 0xFFE ∧
    0xFFE < { State.reset with wc := 0xFFF }.wc.toNat := by decide

theorem witness_LoadPlacesImage :
    imageWellFormed [] = true ∧ imageWellFormed (List.replicate 3584 0xFF) = true := by
  refine ⟨rfl, ?_⟩
  rw [imageWellFormed, imageEven, imageFits, List.length_replicate]
  rfl

theorem witness_LoadRefusesBadImage :
    ([0x12] : List Byte).length % 2 = 1 ∧ (List.replicate 3586 (0x00 : Byte)).length % 2 = 0 ∧
    3584 < (List.replicate 3586 (0x00 : Byte)).length := by
  rw [List.length_replicate]
  decide

theorem witness_KeyEventsUpdateKeypad : (0xF : Nibble) ≠ 0 := by decide

theorem witness_ResetForgetsEverything :
    hostRun [.load [0xC1, 0xFF], .step 1] State.reset = .next
      { (State.reset.setReg 1 (Config.rnd 0 &&& 0xFF)) with
        pc := 0x202, wc := 0x202, draws := 1, mem := [(0x200, 0xC1), (0x201, 0xFF)],
        dispatch := [(0x200, .rndVxKk)] } := rfl

theorem witness_InvariantKeptByStep :
    { State.reset with pc := 0xFFF }.Inv ∧
    step { State.reset with pc := 0xFFF } = .next { State.reset with pc := 0x1001 } :=
  ⟨inv_at 0xFFF (by decide), rfl⟩

theorem witness_InvariantInEveryReachableState :
    { State.reset with pc := 0x202 }.Inv ∧
    hostExec (.compile 0x1202) { State.reset with pc := 0x202 } = .next
      { State.reset with
        pc := 0x202, wc := 0x202, mem := [(0x200, 0x12), (0x201, 0x02)], dispatch := [(0x200, .jpNnn)] } ∧
    Reachable { State.reset with pc := 0x202 } ∧ Elements.Reachable { Elements.reset with pc := 0x202 } :=
  ⟨inv_at 0x202 (by decide), rfl, ⟨[.step 1], rfl⟩, ⟨[(.step 1, fun _ => 0xA7)], rfl⟩⟩

theorem witness_FetchFaultsOnlyAboveMemory :
    { State.reset with pc := 0x1000 }.Inv ∧ fetchInstr { State.reset with pc := 0x1000 } = .error .fetchRange :=
  ⟨inv_at 0x1000 (by decide), rfl⟩

theorem witness_CanonicalFormIsUnique :
    Memory.wf [(0x000, 0x01), (0xFFF, 0x02)] ∧ DispatchTable.wf [(0x200, .cls), (0xFFE, .ret)] := by decide

end Sys2Proof.Tests
end

section
/-! What an instruction writes, said once (10_state.md R21, R22, R37): its next state is the old one with `V`, `PC` and
the elements of `Part.writtenBy` replaced, and each change of a register has a writer. -/

namespace Sys2Proof.Machine

/-- `s` with `V`, `PC` and the elements that `i` writes taken from `t`; memory and the dispatch table as data. -/
def State.withWritesOf (i : Instr) (s t : State) : State :=
  { s with
    v := t.v
    pc := t.pc
    i := if Part.i.writtenBy i then t.i else s.i
    stack := if Part.stack.writtenBy i then t.stack else s.stack
    sp := if Part.sp.writtenBy i then t.sp else s.sp
    dt := if Part.dt.writtenBy i then t.dt else s.dt
    st := if Part.st.writtenBy i then t.st else s.st
    mem := if Part.mem.writtenBy i then t.mem else s.mem
    screen := if Part.screen.writtenBy i then t.screen else s.screen
    lastKey := if Part.lastKey.writtenBy i then t.lastKey else s.lastKey
    blocked := if Part.blocked.writtenBy i then t.blocked else s.blocked
    draws := if Part.draws.writtenBy i then t.draws else s.draws }

/-- The frame of every instruction: what it is not a writer of is the same data afterwards. -/
theorem exec_eq_withWritesOf {i : Instr} {s t : State} (h : exec i s = .next t) : t = s.withWritesOf i t := by
  cases i with
  | drwVxVyN x y n => obtain ⟨-, rfl⟩ := exec_drwVxVyN_next h; rfl
  | skpVx x => obtain ⟨-, rfl⟩ := exec_skpVx_next h; rfl
  | sknpVx x => obtain ⟨-, rfl⟩ := exec_sknpVx_next h; rfl
  | ldBVx x => obtain ⟨-, rfl⟩ := exec_ldBVx_next h; rfl
  | ldMiVx x => obtain ⟨-, rfl⟩ := exec_ldMiVx_next h; rfl
  | ldVxMi x =>
    obtain ⟨-, rfl⟩ := exec_ldVxMi_next h
    rw [State.setRegs_eq]
    rfl
  | ldVxK x =>
    rcases execLdVxK_cases x s with ⟨-, e⟩ | ⟨k, -, e⟩
    · obtain rfl := Host.Outcome.next.inj (e.symm.trans h); rfl
    · obtain rfl := Host.Outcome.next.inj (e.symm.trans h); rfl
  | _ => obtain rfl := Host.Outcome.next.inj h; rfl

theorem State.same_withWritesOf {i : Instr} {p : Part} (s t : State) (hp : p.writtenBy i = false) :
    p.Same s (s.withWritesOf i t) := by
  cases p <;> simp [Part.Same, State.withWritesOf, hp]

/-- Settles O41, from the frame of every instruction. -/
theorem onlyWritersChangeAnElement : Obligations.OnlyWritersChangeAnElement := by
  intro i s t p h hp
  rw [exec_eq_withWritesOf h]
  exact State.same_withWritesOf s t hp

theorem exec_dispatch {i : Instr} {s t : State} (h : exec i s = .next t) : t.dispatch = s.dispatch := by
  rw [exec_eq_withWritesOf h, State.withWritesOf]

theorem exec_wc {i : Instr} {s t : State} (h : exec i s = .next t) : t.wc = s.wc := by
  rw [exec_eq_withWritesOf h, State.withWritesOf]

/-- Memory after an instruction: as before, or with one block that lies in range written. -/
theorem exec_mem {i : Instr} {s t : State} (h : exec i s = .next t) :
    t.mem = s.mem ∨ ∃ a bs, a + bs.length ≤ 0x1000 ∧ t.mem = s.mem.writes a bs := by
  cases hw : Part.mem.writtenBy i with
  | false =>
    rw [exec_eq_withWritesOf h]
    exact .inl (if_neg (by simp [hw]))
  | true =>
    refine .inr ?_
    cases i with
    | ldBVx x => obtain ⟨ha, rfl⟩ := exec_ldBVx_next h; exact ⟨_, _, ha, rfl⟩
    | ldMiVx x =>
      obtain ⟨ha, rfl⟩ := exec_ldMiVx_next h
      refine ⟨_, _, ?_, rfl⟩
      rw [State.length_regsUpTo]
      omega
    | _ => cases hw

/-! ### Registers -/

theorem State.eq_of_reg_ne {s t : State} {x r : Nibble} {b : Byte} (ht : t.v = s.v.set x.toNat b)
    (h : t.reg r ≠ s.reg r) : r = x := by
  by_contra hne
  refine h ?_
  rw [State.reg_congr (s := s.setReg x b) ht, State.reg_setReg, if_neg hne]

theorem State.eq_or_eq_of_reg_ne {s t : State} {x y r : Nibble} {a b : Byte}
    (ht : t.v = (s.v.set x.toNat a).set y.toNat b) (h : t.reg r ≠ s.reg r) : r = x ∨ r = y := by
  by_cases hx : r = x
  · exact .inl hx
  · refine .inr (State.eq_of_reg_ne (s := s.setReg x a) ht ?_)
    rwa [State.reg_setReg, if_neg hx]

/-- Settles O42, by the registers each instruction writes. -/
theorem onlyWritersChangeARegister : Obligations.OnlyWritersChangeARegister := by
  intro i s t r h hr
  cases i with
  | ldVxKk x _ | addVxKk x _ | ldVxVy x _ | orVxVy x _ | andVxVy x _ | xorVxVy x _ | rndVxKk x _ | ldVxDt x =>
    obtain rfl := Host.Outcome.next.inj h
    exact .inl (beq_iff_eq.2 (State.eq_of_reg_ne rfl hr))
  | addVxVy x _ =>
    obtain rfl := Host.Outcome.next.inj h
    exact (State.eq_or_eq_of_reg_ne rfl hr).imp beq_iff_eq.2 (⟨·, rfl⟩)
  | subVxVy x _ | subnVxVy x _ | shrVx x | shlVx x =>
    obtain rfl := Host.Outcome.next.inj h
    exact (State.eq_or_eq_of_reg_ne rfl hr).symm.imp beq_iff_eq.2 (⟨·, rfl⟩)
  | drwVxVyN x y n =>
    obtain ⟨-, rfl⟩ := exec_drwVxVyN_next h
    exact .inr ⟨State.eq_of_reg_ne rfl hr, rfl⟩
  | ldVxK x =>
    rcases execLdVxK_cases x s with ⟨-, e⟩ | ⟨k, -, e⟩
    · obtain rfl := Host.Outcome.next.inj (e.symm.trans h)
      exact absurd rfl hr
    · obtain rfl := Host.Outcome.next.inj (e.symm.trans h)
      exact .inl (beq_iff_eq.2 (State.eq_of_reg_ne rfl hr))
  | ldVxMi x =>
    obtain ⟨-, rfl⟩ := exec_ldVxMi_next h
    refine .inl (decide_eq_true ?_)
    by_contra hgt
    refine hr ?_
    rw [State.reg_advance, State.reg_setRegs, if_neg]
    simp only [List.length_map, List.length_range]
    omega
  | skpVx x => obtain ⟨-, rfl⟩ := exec_skpVx_next h; exact absurd rfl hr
  | sknpVx x => obtain ⟨-, rfl⟩ := exec_sknpVx_next h; exact absurd rfl hr
  | ldBVx x => obtain ⟨-, rfl⟩ := exec_ldBVx_next h; exact absurd rfl hr
  | ldMiVx x => obtain ⟨-, rfl⟩ := exec_ldMiVx_next h; exact absurd rfl hr
  | _ => obtain rfl := Host.Outcome.next.inj h; exact absurd rfl hr

theorem flagByte_eq_zero_or_one (c : Bool) : flagByte c = 0x00 ∨ flagByte c = 0x01 := by
  cases c
  · exact .inl rfl
  · exact .inr rfl

/-- The flag that an instruction leaves in `VF` when its result goes elsewhere. -/
theorem exec_vf_eq_flagByte {i : Instr} {s t : State} (h : exec i s = .next t) (hf : writesFlag i = true)
    (hx : writesResult i vf = false) : ∃ c, t.reg vf = flagByte c := by
  cases i with
  | addVxVy x y =>
    obtain rfl := Host.Outcome.next.inj h
    exact ⟨_, by rw [State.reg_advance, State.reg_setResultThenFlag, if_pos rfl, carryFlag]⟩
  | subVxVy x _ | subnVxVy x _ | shrVx x | shlVx x =>
    obtain rfl := Host.Outcome.next.inj h
    exact ⟨_, by
      rw [State.reg_advance, State.reg_setFlagThenResult, if_neg (beq_eq_false_iff_ne.1 hx), if_pos rfl]
      rfl⟩
  | drwVxVyN x y n =>
    obtain ⟨-, rfl⟩ := exec_drwVxVyN_next h
    exact ⟨_, by rw [State.reg_advance, drawState, State.reg_setReg, if_pos rfl]⟩
  | _ => cases hf

/-- Settles O43: the flag written is a `flagByte`. -/
theorem flagIsZeroOrOne : Obligations.FlagIsZeroOrOne := by
  intro i s t h hf hx
  obtain ⟨c, hc⟩ := exec_vf_eq_flagByte h hf hx
  exact hc ▸ flagByte_eq_zero_or_one c

end Sys2Proof.Machine
end

section
/-! The invariant (10_state.md R24, R38): it holds after reset, an instruction that the fetch can deliver keeps it, and
so does every operation of the host, over the core's state and over the fourteen elements alone. -/

namespace Sys2Proof.Machine

/-- Settles O56. -/
theorem invariantAtReset : Obligations.InvariantAtReset := by
  refine ⟨⟨⟨List.Pairwise.nil, nofun⟩, ⟨List.Pairwise.nil, nofun⟩⟩, ?_, fun a ha => absurd rfl ha,
    ?_, fun k => ?_⟩
  · simp [State.CursorInRange]
  · simp
  · simp

/-- The invariant looks at memory, the dispatch table, the cursor, the stack and `PC` only. -/
theorem State.Inv.of_frame {s t : State} (hi : s.Inv) (hm : t.mem.wf) (hd : t.dispatch = s.dispatch)
    (hw : t.wc = s.wc) (hpc : t.PcBounded) : t.Inv := by
  obtain ⟨⟨-, hdwf⟩, hcur, hcomp, -⟩ := hi
  refine ⟨⟨hm, hd ▸ hdwf⟩, ?_, ?_, hpc⟩
  · unfold State.CursorInRange
    rwa [hw]
  · unfold State.HandlersCompiled
    rwa [hd, hw]

/-- In a state of the invariant a handler other than ILLEGAL stands at an even address, so below 0xFFF. -/
theorem State.Inv.handler_le {s : State} (hi : s.Inv) {a : Nat} (h : s.dispatch.handler a ≠ .illegal) :
    a ≤ 0xFFE := by
  obtain ⟨-, -, hcomp, -⟩ := hi
  obtain ⟨-, -, hle, -⟩ := hcomp a h
  exact hle

/-- Settles O59: the fault on the second byte needs a handler at 0xFFF. -/
theorem fetchFaultsOnlyAboveMemory : Obligations.FetchFaultsOnlyAboveMemory := by
  intro s f hi
  rcases fetchInstr_cases s with ⟨hpc, e⟩ | ⟨hpc, -, e⟩ | ⟨hpc, -, e⟩ | ⟨hpc, hh, -⟩
  · rw [e, Except.error.injEq]
    exact ⟨fun hf => ⟨hf.symm, hpc⟩, fun hf => hf.1.symm⟩
  · rw [e]
    exact ⟨nofun, fun hf => by omega⟩
  · rw [e]
    exact ⟨nofun, fun hf => by omega⟩
  · have := hi.handler_le hh
    omega

/-- Where the fetch delivers an instruction: `PC` is in memory, and at the last byte only ILLEGAL runs. -/
theorem fetchInstr_ok_bounds {s : State} {i : Instr} (h : fetchInstr s = .ok i) :
    s.pc.toNat ≤ 0xFFF ∧ (i ≠ .illegal → s.pc.toNat ≤ 0xFFE) := by
  rcases fetchInstr_cases s with ⟨-, e⟩ | ⟨hpc, -, e⟩ | ⟨hpc, -, -⟩ | ⟨-, -, e⟩
  · rw [e] at h; exact nomatch h
  · rw [e] at h
    exact ⟨hpc, fun hne => absurd (Except.ok.inj h).symm hne⟩
  · exact ⟨by omega, fun _ => by omega⟩
  · rw [e] at h; exact nomatch h

/-! ### `PC` and the return addresses -/

/-- Where an instruction can leave `PC` (R24): the key wait at itself, the others behind themselves (two instructions
behind for a skip), a jump or a call at its address, a return at the top of the stack. -/
inductive PcMove (s : State) : Word → Prop
  | stay : PcMove s s.pc
  | onward (skip : Bool) : PcMove s (s.skipIf skip).pc
  | absolute (nnn : Addr12) : PcMove s nnn.zext16
  | indexed (nnn : Addr12) : PcMove s (jumpV0Target s nnn)
  | back : PcMove s s.top

theorem exec_pcMove {i : Instr} {s t : State} (h : exec i s = .next t) : PcMove s t.pc := by
  cases i with
  | jpNnn nnn | callNnn nnn => obtain rfl := Host.Outcome.next.inj h; exact .absolute nnn
  | jpV0Nnn nnn => obtain rfl := Host.Outcome.next.inj h; exact .indexed nnn
  | ret => obtain rfl := Host.Outcome.next.inj h; exact .back
  | seVxKk x kk | sneVxKk x kk | seVxVy x y | sneVxVy x y => obtain rfl := Host.Outcome.next.inj h; exact .onward _
  | skpVx x => obtain ⟨-, rfl⟩ := exec_skpVx_next h; exact .onward _
  | sknpVx x => obtain ⟨-, rfl⟩ := exec_sknpVx_next h; exact .onward _
  | ldVxK x =>
    rcases execLdVxK_cases x s with ⟨-, e⟩ | ⟨k, -, e⟩
    · obtain rfl := Host.Outcome.next.inj (e.symm.trans h); exact .stay
    · obtain rfl := Host.Outcome.next.inj (e.symm.trans h); exact .onward false
  | drwVxVyN x y n => obtain ⟨-, rfl⟩ := exec_drwVxVyN_next h; exact .onward false
  | ldBVx x => obtain ⟨-, rfl⟩ := exec_ldBVx_next h; exact .onward false
  | ldMiVx x => obtain ⟨-, rfl⟩ := exec_ldMiVx_next h; exact .onward false
  | ldVxMi x =>
    obtain ⟨-, rfl⟩ := exec_ldVxMi_next h
    rw [State.advance_pc, State.setRegs_pc]
    exact .onward false
  | _ => obtain rfl := Host.Outcome.next.inj h; exact .onward false

/-- From `PC` in memory every move stays within the bound of R24, which the indexed jump attains. -/
theorem PcMove.le {s : State} {w : Word} (h : PcMove s w) (hpc : s.pc.toNat ≤ 0xFFF)
    (hs : ∀ k : Nibble, s.stack[k.toNat].toNat ≤ 0x1000) : w.toNat ≤ 0x10FE := by
  cases h with
  | stay => omega
  | onward skip =>
    rw [State.skipIf_pc]
    cases skip
    · rw [if_neg Bool.false_ne_true]; bv_omega
    · rw [if_pos rfl]; bv_omega
  | absolute nnn =>
    simp only [Addr12.zext16, BitVec.toNat_setWidth]
    omega
  | indexed nnn =>
    simp only [jumpV0Target, Addr12.zext16, Byte.zext16, BitVec.toNat_add, BitVec.toNat_setWidth]
    omega
  | back =>
    have := hs (s.sp - 1)
    rw [State.top]
    omega

/-- A pushed value stands at the entry `SP` pointed to; every other entry is as before. -/
theorem State.stack_push (s : State) (w : Word) (k : Nibble) :
    (s.push w).stack[k.toNat] = if k = s.sp then w else s.stack[k.toNat] := by
  simp only [State.push_stack, Vector.getElem_set, BitVec.toNat_inj, eq_comm (a := s.sp)]

/-- The return addresses stay bounded: only CALL writes one, and no CALL stands at the last byte of memory. -/
theorem exec_stack_le {i : Instr} {s t : State} (h : exec i s = .next t) (hpc : i ≠ .illegal → s.pc.toNat ≤ 0xFFE)
    (hs : ∀ k : Nibble, s.stack[k.toNat].toNat ≤ 0x1000) (k : Nibble) : t.stack[k.toNat].toNat ≤ 0x1000 := by
  cases hw : Part.stack.writtenBy i with
  | false =>
    have heq : t.stack = s.stack := onlyWritersChangeAnElement i s t .stack h hw
    rw [heq]
    exact hs k
  | true =>
    cases i with
    | callNnn nnn =>
      obtain rfl := Host.Outcome.next.inj h
      have hle := hpc nofun
      simp only [State.jump_stack, State.stack_push, returnAddr]
      split
      · bv_omega
      · exact hs k
    | _ => cases hw

/-! ### Steps -/

/-- An instruction keeps the invariant where the fetch can deliver it. -/
theorem exec_inv {i : Instr} {s t : State} (hi : s.Inv) (hpc : s.pc.toNat ≤ 0xFFF)
    (hpc' : i ≠ .illegal → s.pc.toNat ≤ 0xFFE) (h : exec i s = .next t) : t.Inv := by
  have ⟨⟨hmwf, _⟩, _, _, _, hs⟩ := hi
  have hm : t.mem.wf := by
    rcases exec_mem h with hm | ⟨a, bs, hle, hm⟩
    · rwa [hm]
    · rw [hm]
      exact Memory.wf_writes hmwf a bs (.inr hle)
  exact hi.of_frame hm (exec_dispatch h) (exec_wc h) ⟨(exec_pcMove h).le hpc hs, exec_stack_le h hpc' hs⟩

/-- Settles O57: the engine was Blocked, or ran an instruction that the fetch delivered. -/
theorem invariantKeptByStep : Obligations.InvariantKeptByStep := by
  intro s t hi h
  rcases step_cases h with ⟨-, rfl⟩ | ⟨-, i, hf, he⟩
  · exact hi
  · obtain ⟨hpc, hpc'⟩ := fetchInstr_ok_bounds hf
    exact exec_inv hi hpc hpc' he

end Sys2Proof.Machine
end

section
/-! The invariant under the operations of the host (10_state.md R38), and so in every state reached from reset; then
the same over the fourteen elements, for all inputs. -/

namespace Sys2Proof.Machine

/-- `compile` keeps the invariant: the new handler stands below the new cursor. -/
theorem compile_inv {w : Word} {s t : State} (hi : s.Inv) (h : compile w s = .next t) : t.Inv := by
  rcases compile_cases w s with ⟨hle, e⟩ | ⟨-, e⟩
  · obtain rfl := Host.Outcome.next.inj (e.symm.trans h)
    obtain ⟨⟨hm, hd⟩, ⟨heven, hbase, -⟩, hcomp, hpc⟩ := hi
    have hwc : (s.wc + 2).toNat = s.wc.toNat + 2 := by bv_omega
    have hhi := Memory.wf_write hm (show s.wc.toNat ≤ 0xFFF by omega) (hiByte w)
    have hlo := Memory.wf_write hhi (show s.wc.toNat + 1 ≤ 0xFFF by omega) (loByte w)
    refine ⟨⟨hlo, DispatchTable.wf_set hd (by omega) _⟩, ?_, fun a ha => ?_, hpc⟩
    · simp only [State.CursorInRange, hwc]
      omega
    · rw [DispatchTable.handler_set hd] at ha
      rw [hwc]
      by_cases heq : a = s.wc.toNat
      · omega
      · rw [if_neg heq] at ha
        have := hcomp a ha
        omega
  · rw [e] at h; exact nomatch h

theorem compilePairs_inv {bytes : List Byte} {s t : State} (hi : s.Inv)
    (h : compilePairs bytes s = .next t) : t.Inv := by
  fun_induction compilePairs bytes s with
  | case1 s hi' lo rest s' e ih => exact ih (compile_inv hi e) h
  | case4 s => exact Host.Outcome.next.inj h ▸ hi
  | case2 | case3 | case5 => exact nomatch h

theorem hostReset_inv (s : State) : s.hostReset.Inv := invariantAtReset

theorem load_inv {bytes : List Byte} {s t : State} (h : load bytes s = .next t) : t.Inv := by
  unfold load at h
  split at h
  · exact nomatch h
  · split at h
    · exact nomatch h
    · exact compilePairs_inv (hostReset_inv s) h

theorem stepN_inv {n : Nat} {s t : State} (hi : s.Inv) (h : stepN n s = .next t) : t.Inv := by
  fun_induction stepN n s with
  | case1 s => exact Host.Outcome.next.inj h ▸ hi
  | case2 n s hb => exact Host.Outcome.next.inj h ▸ hi
  | case3 n s hb s' e ih => exact ih (invariantKeptByStep s s' hi e) h
  | case4 | case5 => exact nomatch h

theorem hostExec_inv {op : HostOp} {s t : State} (hi : s.Inv) (h : hostExec op s = .next t) : t.Inv := by
  cases op with
  | reset => exact Host.Outcome.next.inj h ▸ hostReset_inv s
  | load bytes => exact load_inv h
  | compile w => exact compile_inv hi h
  | step n => exact stepN_inv hi h
  | tick => exact Host.Outcome.next.inj h ▸ hi
  | keyPressed key => obtain rfl := Host.Outcome.next.inj h; cases key <;> exact hi
  | keyReleased key => obtain rfl := Host.Outcome.next.inj h; cases key <;> exact hi

theorem hostRun_inv {ops : List HostOp} {s t : State} (hi : s.Inv) (h : hostRun ops s = .next t) : t.Inv := by
  fun_induction hostRun ops s with
  | case1 s => exact Host.Outcome.next.inj h ▸ hi
  | case2 s op ops s' e ih => exact ih (hostExec_inv hi e) h
  | case3 | case4 => exact nomatch h

/-! ### Over the fourteen elements, whatever the inputs -/

theorem elementsOf_eq_next {o : Host.Outcome State Fault Refusal} {e : Elements} (h : elementsOf o = .next e) :
    ∃ t, o = .next t ∧ t.toElements = e := by
  cases o with
  | next t => exact ⟨t, rfl, Host.Outcome.next.inj h⟩
  | fault f => exact nomatch h
  | refused r => exact nomatch h

/-- Only `step(n)` has inputs: every other operation over the elements is the one over states. -/
theorem Elements.hostExec_eq_elementsOf (r : Nat → Byte) {op : HostOp} (e : Elements) (h : ∀ n, op ≠ .step n) :
    Elements.hostExec r op e = elementsOf (Machine.hostExec op e.asState) := by
  cases op with
  | step n => exact absurd rfl (h n)
  | _ => rfl

/-- The invariant does not look at the place in the stream of inputs. -/
theorem State.Inv.of_elementsOf {o : Host.Outcome State Fault Refusal} {e : Elements} (h : elementsOf o = .next e)
    (hi : ∀ t, o = .next t → t.Inv) : e.asState.Inv := by
  obtain ⟨t, ht, rfl⟩ := elementsOf_eq_next h
  exact hi t ht

/-- RND on the input `r` is LD Vx,kk of the masked byte. -/
theorem Elements.exec_rndVxKk_eq_ldVxKk (r : Byte) (x : Nibble) (kk : Byte) (e : Elements) :
    Elements.exec r (.rndVxKk x kk) e = Elements.exec r (.ldVxKk x (r &&& kk)) e := rfl

theorem Elements.exec_inv {r : Byte} {i : Instr} {e e' : Elements} (hi : e.asState.Inv)
    (hf : fetchInstr e.asState = .ok i) (h : Elements.exec r i e = .next e') : e'.asState.Inv := by
  obtain ⟨hpc, hpc'⟩ := fetchInstr_ok_bounds hf
  by_cases hr : ∃ x kk, i = .rndVxKk x kk
  · obtain ⟨x, kk, rfl⟩ := hr
    rw [Elements.exec_rndVxKk_eq_ldVxKk, Elements.exec_eq_exec r (i := .ldVxKk x (r &&& kk)) e nofun] at h
    exact State.Inv.of_elementsOf h fun t => Machine.exec_inv hi hpc fun _ => hpc' nofun
  · rw [Elements.exec_eq_exec r e (by simpa using hr)] at h
    exact State.Inv.of_elementsOf h fun t => Machine.exec_inv hi hpc hpc'

/-- What a step over the elements can answer: nothing happened, or an instruction ran on the input. -/
theorem Elements.step_cases {r : Byte} {e e' : Elements} (h : Elements.step r e = .next e') :
    e' = e ∨ ∃ i, fetchInstr e.asState = .ok i ∧ Elements.exec r i e = .next e' := by
  unfold Elements.step fetchNext at h
  cases hb : e.asState.blocked with
  | true =>
    simp only [hb] at h
    exact .inl (Host.Outcome.next.inj h).symm
  | false =>
    cases hf : fetchInstr e.asState with
    | error f => simp [hb, hf] at h
    | ok i => exact .inr ⟨i, rfl, by simpa [hb, hf] using h⟩

theorem Elements.step_inv {r : Byte} {e e' : Elements} (hi : e.asState.Inv) (h : Elements.step r e = .next e') :
    e'.asState.Inv := by
  rcases Elements.step_cases h with rfl | ⟨i, hf, he⟩
  · exact hi
  · exact Elements.exec_inv hi hf he

theorem Elements.stepN_inv {r : Nat → Byte} {n : Nat} {e e' : Elements} (hi : e.asState.Inv)
    (h : Elements.stepN r n e = .next e') : e'.asState.Inv := by
  fun_induction Elements.stepN r n e with
  | case1 r e => exact Host.Outcome.next.inj h ▸ hi
  | case2 r e n hb => exact Host.Outcome.next.inj h ▸ hi
  | case3 r e n hb e₁ he ih => exact ih (Elements.step_inv hi he) h
  | case4 | case5 => exact nomatch h

theorem Elements.hostExec_inv {r : Nat → Byte} {op : HostOp} {e e' : Elements} (hi : e.asState.Inv)
    (h : Elements.hostExec r op e = .next e') : e'.asState.Inv := by
  by_cases hop : ∃ n, op = .step n
  · obtain ⟨n, rfl⟩ := hop
    exact Elements.stepN_inv hi h
  · rw [Elements.hostExec_eq_elementsOf r e (by simpa using hop)] at h
    exact State.Inv.of_elementsOf h fun t => Machine.hostExec_inv hi

theorem Elements.hostRun_inv {ops : List (HostOp × (Nat → Byte))} {e e' : Elements} (hi : e.asState.Inv)
    (h : Elements.hostRun ops e = .next e') : e'.asState.Inv := by
  fun_induction Elements.hostRun ops e with
  | case1 e => exact Host.Outcome.next.inj h ▸ hi
  | case2 e op r ops e₁ he ih => exact ih (Elements.hostExec_inv hi he) h
  | case3 | case4 => exact nomatch h

/-- Settles O58: each operation keeps the invariant, so histories from reset do. -/
theorem invariantInEveryReachableState : Obligations.InvariantInEveryReachableState :=
  ⟨fun _ _ _ hi h => hostExec_inv hi h, fun _ ⟨_, h⟩ => hostRun_inv invariantAtReset h,
    fun _ ⟨_, h⟩ => Elements.hostRun_inv invariantAtReset h⟩

end Sys2Proof.Machine
end

section
/-! What no instruction reads: `ST`, `WC` and, outside RND, the counter of draws (10_state.md R28, R35, R36). Every
other instruction commutes with any change of the three; hence the core and its host operations are the machine over
the fourteen elements. -/

namespace Sys2Proof.Machine

/-- `s` with `ST`, `WC` and the counter of draws replaced: no instruction reads the first two, and only RND the third. -/
def State.mapUnread (f : Byte → Byte) (g : Word → Word) (k : Nat → Nat) (s : State) : State :=
  { s with st := f s.st, wc := g s.wc, draws := k s.draws }

/-- An outcome with its next state, if there is one, replaced. -/
def mapNext (u : State → State) : Host.Outcome State Fault Refusal → Host.Outcome State Fault Refusal
  | .next t => .next (u t)
  | .fault f => .fault f
  | .refused r => .refused r

theorem outcomeOf_map (u : State → State) (r : Except Fault State) :
    outcomeOf (r.map u) = mapNext u (outcomeOf r) := by
  cases r <;> rfl

section

variable (f : Byte → Byte) (g : Word → Word) (k : Nat → Nat)

theorem memReadBlock_mapUnread (s : State) (a n : Nat) :
    memReadBlock (s.mapUnread f g k) a n = memReadBlock s a n := by
  induction n generalizing a with
  | zero => rfl
  | succ n ih => rw [memReadBlock, memReadBlock, ih]; rfl

theorem memWriteBlock_mapUnread (s : State) (a : Nat) (bs : List Byte) :
    memWriteBlock (s.mapUnread f g k) a bs = (memWriteBlock s a bs).map (State.mapUnread f g k) := by
  induction bs generalizing s a with
  | nil => rfl
  | cons b bs ih =>
    rw [memWriteBlock, memWriteBlock, memWrite, memWrite]
    by_cases ha : a ≤ 0xFFF
    · simp only [if_pos ha]
      exact ih { s with mem := s.mem.write a b } (a + 1)
    · simp only [if_neg ha]
      rfl

theorem setRegs_mapUnread (s : State) (r : Nat) (bs : List Byte) :
    (s.mapUnread f g k).setRegs r bs = (s.setRegs r bs).mapUnread f g k := by
  induction bs generalizing s r with
  | nil => rfl
  | cons b bs ih => exact ih { s with v := s.v.setIfInBounds r b } (r + 1)

@[simp] theorem reg_mapUnread (s : State) (r : Nibble) : (s.mapUnread f g k).reg r = s.reg r := rfl

@[simp] theorem regsUpTo_mapUnread (s : State) (n : Nat) : (s.mapUnread f g k).regsUpTo n = s.regsUpTo n := rfl

@[simp] theorem effAddr_mapUnread (s : State) (n : Nat) : effAddr (s.mapUnread f g k) n = effAddr s n := rfl

theorem storeBlock_mapUnread (bytes : List Byte) (s : State) :
    storeBlock bytes (s.mapUnread f g k) = (storeBlock bytes s).map (State.mapUnread f g k) := by
  rw [storeBlock, storeBlock, effAddr_mapUnread, memWriteBlock_mapUnread]
  cases memWriteBlock s (effAddr s 0) bytes <;> rfl

theorem loadBlock_mapUnread (n : Nat) (s : State) :
    loadBlock n (s.mapUnread f g k) = (loadBlock n s).map (State.mapUnread f g k) := by
  rw [loadBlock, loadBlock, effAddr_mapUnread, memReadBlock_mapUnread]
  cases memReadBlock s (effAddr s 0) n with
  | error e => rfl
  | ok bytes => simp only [setRegs_mapUnread]; rfl

theorem drawBlock_mapUnread (x y n : Nibble) (s : State) :
    drawBlock x y n (s.mapUnread f g k) = (drawBlock x y n s).map (State.mapUnread f g k) := by
  rw [drawBlock, drawBlock, effAddr_mapUnread, memReadBlock_mapUnread]
  cases memReadBlock s (effAddr s 0) n.toNat <;> rfl

theorem keySkip_mapUnread (x : Nibble) (wanted : Bool) (s : State) :
    keySkip x wanted (s.mapUnread f g k) = (keySkip x wanted s).map (State.mapUnread f g k) := by
  rw [keySkip, keySkip, reg_mapUnread]
  cases keyOperand (s.reg x) <;> rfl

/-- Every instruction but LD ST and RND commutes with any change of `ST`, `WC` and the counter of draws. -/
theorem exec_mapUnread {i : Instr} (s : State) (hst : ∀ x, i ≠ .ldStVx x) (hrnd : ∀ x kk, i ≠ .rndVxKk x kk) :
    exec i (s.mapUnread f g k) = mapNext (State.mapUnread f g k) (exec i s) := by
  cases i with
  | drwVxVyN x y n =>
    rw [exec, exec, execDrwVxVyN, execDrwVxVyN, drawBlock_mapUnread, outcomeOf_map]
  | skpVx x => rw [exec, exec, execSkpVx, execSkpVx, keySkip_mapUnread, outcomeOf_map]
  | sknpVx x => rw [exec, exec, execSknpVx, execSknpVx, keySkip_mapUnread, outcomeOf_map]
  | ldBVx x => rw [exec, exec, execLdBVx, execLdBVx, storeBlock_mapUnread, outcomeOf_map, reg_mapUnread]
  | ldMiVx x => rw [exec, exec, execLdMiVx, execLdMiVx, regsUpTo_mapUnread, storeBlock_mapUnread, outcomeOf_map]
  | ldVxMi x => rw [exec, exec, execLdVxMi, execLdVxMi, loadBlock_mapUnread, outcomeOf_map]
  | ldVxK x =>
    rw [exec, exec, execLdVxK, execLdVxK, State.mapUnread]
    cases s.lastKey <;> rfl
  | ldStVx x => exact absurd rfl (hst x)
  | rndVxKk x kk => exact absurd rfl (hrnd x kk)
  | _ => rfl

end

/-- Settles O44: `ST` and `WC` replaced, the counter of draws kept. -/
theorem soundTimerAndCursorAreNotRead : Obligations.SoundTimerAndCursorAreNotRead := by
  intro i s b c
  by_cases hst : ∃ x, i = .ldStVx x
  · obtain ⟨x, rfl⟩ := hst
    exact ⟨fun t h => ⟨s.reg x, by rw [← Host.Outcome.next.inj h]; rfl⟩, fun f h => nomatch h⟩
  by_cases hrnd : ∃ x kk, i = .rndVxKk x kk
  · obtain ⟨x, kk, rfl⟩ := hrnd
    exact ⟨fun t h => ⟨b, by rw [← Host.Outcome.next.inj h]; rfl⟩, fun f h => nomatch h⟩
  have hexec := exec_mapUnread (fun _ => b) (fun _ => c) id s (by simpa using hst) (by simpa using hrnd)
  exact ⟨fun t h => ⟨b, by rw [h] at hexec; exact hexec⟩, fun f h => by rw [h] at hexec; exact hexec⟩

/-- With another place in the stream of inputs an instruction other than RND does the same. -/
theorem exec_withDraws {i : Instr} (s : State) (d : Nat) (hrnd : ∀ x kk, i ≠ .rndVxKk x kk) :
    exec i { s with draws := d } = mapNext (fun t => { t with draws := d }) (exec i s) := by
  by_cases hst : ∃ x, i = .ldStVx x
  · obtain ⟨x, rfl⟩ := hst
    rfl
  · exact exec_mapUnread id id (fun _ => d) s (by simpa using hst) hrnd

/-- No instruction but RND moves on in the stream of inputs. -/
theorem exec_draws {i : Instr} {s t : State} (hrnd : ∀ x kk, i ≠ .rndVxKk x kk) (h : exec i s = .next t) :
    t.draws = s.draws := by
  refine onlyWritersChangeAnElement i s t .draws h ?_
  cases i with
  | rndVxKk x kk => exact absurd rfl (hrnd x kk)
  | _ => rfl

/-- Settles O45. -/
theorem onlyRandomReadsTheDraws : Obligations.OnlyRandomReadsTheDraws := by
  intro i s d hrnd
  have hexec := exec_withDraws s d hrnd
  exact ⟨fun t h => ⟨exec_draws hrnd h, by rw [hexec, h]; rfl⟩, fun f h => by rw [hexec, h]; rfl⟩

/-! ### The core as the machine over the fourteen elements (45_keys_timers_random.md R237) -/

theorem elementsOf_mapNext_draws (o : Host.Outcome State Fault Refusal) (d : Nat) :
    elementsOf (mapNext (fun t => { t with draws := d }) o) = elementsOf o := by
  cases o <;> rfl

/-- `exec` on the next byte of the stream is the instruction over the elements with that byte as its input. -/
theorem elementsOf_exec (i : Instr) (s : State) :
    elementsOf (exec i s) = Elements.exec (Config.rnd s.draws) i s.toElements := by
  by_cases hrnd : ∃ x kk, i = .rndVxKk x kk
  · obtain ⟨x, kk, rfl⟩ := hrnd
    rfl
  · have hrnd : ∀ x kk, i ≠ .rndVxKk x kk := by simpa using hrnd
    have hexec : exec i s.toElements.asState = _ := exec_withDraws s 0 hrnd
    rw [Elements.exec_eq_exec _ _ hrnd, hexec, elementsOf_mapNext_draws]

theorem elementsOf_step (s : State) : elementsOf (step s) = Elements.step (Config.rnd s.draws) s.toElements := by
  rw [step, Elements.step, fetchNext_asState]
  cases fetchNext s with
  | error f => rfl
  | ok o =>
    cases o with
    | none => rfl
    | some i => exact elementsOf_exec i s

/-- Settles O46: the outcomes agree instruction by instruction, and RND alone uses up a byte. -/
theorem coreIsTheMachineWithInputs : Obligations.CoreIsTheMachineWithInputs := by
  intro s
  refine ⟨elementsOf_step s, fun t x kk h hf => ?_, fun t h hf => ?_⟩
  · rw [step, hf] at h
    rw [← Host.Outcome.next.inj h]
  · rw [step] at h
    split at h
    · exact nomatch h
    · rw [← Host.Outcome.next.inj h]
    · next i hi => exact exec_draws (fun x kk heq => hf x kk (heq ▸ hi)) h

/-! ### The operations of the host -/

theorem compile_withDraws (w : Word) (s : State) (d : Nat) :
    compile w { s with draws := d } = mapNext (fun t => { t with draws := d }) (compile w s) := by
  unfold compile
  by_cases h : 0xFFE < s.wc.toNat
  · simp only [if_pos h]
    rfl
  · simp only [if_neg h]
    rfl

theorem compilePairs_withDraws (bytes : List Byte) (s : State) (d : Nat) :
    compilePairs bytes { s with draws := d } = mapNext (fun t => { t with draws := d }) (compilePairs bytes s) := by
  fun_induction compilePairs bytes s with
  | case1 s hi lo rest s' e ih => rw [compilePairs, compile_withDraws, e]; exact ih
  | case2 s hi lo rest f e => rw [compilePairs, compile_withDraws, e]; rfl
  | case3 s hi lo rest r e => rw [compilePairs, compile_withDraws, e]; rfl
  | case4 | case5 => rfl

theorem load_withDraws (bytes : List Byte) (s : State) (d : Nat) :
    load bytes { s with draws := d } = mapNext (fun t => { t with draws := d }) (load bytes s) := by
  unfold load
  cases imageEven bytes with
  | false => rfl
  | true =>
    cases imageFits bytes with
    | false => rfl
    | true => exact compilePairs_withDraws bytes { s.hostReset with wc := 0x0200 } d

/-- An operation other than `step(n)` does not look at the place in the stream of inputs. -/
theorem hostExec_withDraws {op : HostOp} (s : State) (d : Nat) (h : ∀ n, op ≠ .step n) :
    hostExec op { s with draws := d } = mapNext (fun t => { t with draws := d }) (hostExec op s) := by
  cases op with
  | load bytes => exact load_withDraws bytes s d
  | compile w => exact compile_withDraws w s d
  | step n => exact absurd rfl (h n)
  | reset | tick => rfl
  | keyPressed key | keyReleased key => cases key <;> rfl

/-- `step(n)` is the one over the elements with the bytes as inputs that its steps find in the stream. -/
theorem elementsOf_stepN (n : Nat) (s : State) : ∃ r, elementsOf (stepN n s) = Elements.stepN r n s.toElements := by
  fun_induction stepN n s with
  | case1 s => exact ⟨fun _ => Config.rnd s.draws, rfl⟩
  | case2 n s hb => exact ⟨fun _ => Config.rnd s.draws, by rw [Elements.stepN, if_pos hb]; rfl⟩
  | case3 n s hb s' e ih =>
    obtain ⟨r, hr⟩ := ih
    have hstep : Elements.step (Config.rnd s.draws) s.toElements = .next s'.toElements := by
      rw [← elementsOf_step, e, elementsOf_next]
    refine ⟨Stream'.cons (Config.rnd s.draws) r, ?_⟩
    rw [Elements.stepN_succ_next (r := Stream'.cons _ r) n (by simpa using hb) hstep]
    exact hr
  | case4 n s hb f e =>
    have hstep : Elements.step (Config.rnd s.draws) s.toElements = .fault f := by
      rw [← elementsOf_step, e, elementsOf_fault]
    exact ⟨fun _ => Config.rnd s.draws, (Elements.stepN_succ_fault n (by simpa using hb) hstep).symm⟩
  | case5 n s hb r e => exact absurd e (step_ne_refused s r)

theorem elementsOf_hostExec (op : HostOp) (s : State) :
    ∃ r, elementsOf (hostExec op s) = Elements.hostExec r op s.toElements := by
  by_cases hop : ∃ n, op = .step n
  · obtain ⟨n, rfl⟩ := hop
    exact elementsOf_stepN n s
  · have hop : ∀ n, op ≠ .step n := by simpa using hop
    have hexec : hostExec op s.toElements.asState = _ := hostExec_withDraws s 0 hop
    exact ⟨fun _ => 0, by rw [Elements.hostExec_eq_elementsOf _ _ hop, hexec, elementsOf_mapNext_draws]⟩

theorem elementsOf_hostRun (ops : List HostOp) (s : State) : ∃ evs : List (HostOp × (Nat → Byte)),
    evs.map Prod.fst = ops ∧ elementsOf (hostRun ops s) = Elements.hostRun evs s.toElements := by
  induction ops generalizing s with
  | nil => exact ⟨[], rfl, rfl⟩
  | cons op ops ih =>
    obtain ⟨r, hr⟩ := elementsOf_hostExec op s
    have hops : ((op, r) :: ops.map (·, r)).map Prod.fst = op :: ops := by simp [Function.comp_def]
    cases e : hostExec op s with
    | next s' =>
      obtain ⟨evs, hevs, hrun⟩ := ih s'
      rw [e, elementsOf_next] at hr
      exact ⟨(op, r) :: evs, by rw [List.map_cons, hevs],
        by rw [hostRun_cons_next ops e, Elements.hostRun_cons_next evs hr.symm, hrun]⟩
    | fault f => exact ⟨_, hops, by rw [hostRun, Elements.hostRun, ← hr, e]; rfl⟩
    | refused x => exact ⟨_, hops, by rw [hostRun, Elements.hostRun, ← hr, e]; rfl⟩

/-- Settles O47. -/
theorem hostIsTheMachineWithInputs : Obligations.HostIsTheMachineWithInputs :=
  ⟨rfl, elementsOf_hostExec, elementsOf_hostRun⟩

end Sys2Proof.Machine
end

section
/-! The data of the state (10_state.md): the call stack as sixteen entries in a ring (R26), the canonical form of the
sparse tables (log 21), and the state after reset (R39). -/

namespace Sys2Proof.Machine

/-- Up to sixteen pushes move `SP` on by their number and leave the values in order from the entry it pointed to. -/
theorem State.foldl_push (s : State) (ws : List Word) (h : ws.length ≤ 16) :
    (ws.foldl State.push s).sp = s.sp + BitVec.ofNat 4 ws.length ∧
    ∀ k : Nibble, k.toNat < ws.length → (ws.foldl State.push s).stack[(s.sp + k).toNat] = ws.getD k.toNat 0 := by
  induction ws using List.reverseRecOn with
  | nil => simp
  | append_singleton ws w ih =>
    rw [List.length_append, List.length_singleton] at h ⊢
    obtain ⟨hsp, hstack⟩ := ih (by omega)
    rw [List.foldl_append, List.foldl_cons, List.foldl_nil]
    refine ⟨?_, fun k hk => ?_⟩
    · rw [State.push_sp, hsp, BitVec.ofNat_add, BitVec.add_assoc]
      rfl
    · simp only [State.stack_push, hsp, add_right_inj]
      by_cases hlast : k.toNat = ws.length
      · rw [if_pos (by rw [← hlast, BitVec.ofNat_toNat, BitVec.setWidth_eq]), hlast]
        simp
      · have hne : k ≠ BitVec.ofNat 4 ws.length := by
          rintro rfl
          simp only [BitVec.toNat_ofNat] at hlast
          omega
        rw [if_neg hne, hstack k (by omega), List.getD_append _ _ _ _ (by omega)]

/-- Settles O17: sixteen pushes fill the ring, and the seventeenth is written where the first was. -/
theorem seventeenthPushOverwritesOldest : Obligations.SeventeenthPushOverwritesOldest := by
  intro s ws w hlen
  obtain ⟨hsp, hstack⟩ := State.foldl_push s ws (by omega)
  have hsp : (ws.foldl State.push s).sp = s.sp := by rw [hsp, hlen]; exact BitVec.add_zero _
  have hstack : ∀ k : Nibble, (ws.foldl State.push s).stack[(s.sp + k).toNat] = ws.getD k.toNat 0 :=
    fun k => hstack k (by omega)
  rw [List.foldl_append, List.foldl_cons, List.foldl_nil]
  refine ⟨hsp, hstack, ?_, fun k hk => ?_⟩
  · rw [State.stack_push, if_pos hsp.symm]
  · rw [State.stack_push, hsp, if_neg (by simpa using hk), hstack k]

/-! ### The canonical form -/

section Sparse

variable {α : Type} [DecidableEq α] {dflt : Nat → α} {bound : Nat}

theorem Sparse.wf_of_wf_cons {e : Nat × α} {m : List (Nat × α)} (h : Sparse.wf dflt bound (e :: m)) :
    Sparse.wf dflt bound m ∧ (∀ e' ∈ m, e.1 < e'.1) ∧ e.2 ≠ dflt e.1 := by
  obtain ⟨hkeys, hentries⟩ := h
  rw [List.map_cons, List.pairwise_cons] at hkeys
  exact ⟨⟨hkeys.2, fun e' he' => hentries e' (List.mem_cons_of_mem e he')⟩,
    fun e' he' => hkeys.1 _ (List.mem_map_of_mem he'), (hentries e List.mem_cons_self).2⟩

omit [DecidableEq α] in
theorem Sparse.get_cons_self (e : Nat × α) (m : List (Nat × α)) : Sparse.get dflt (e :: m) e.1 = e.2 := if_pos rfl

/-- A table that reads like one with the first key `e.1` lists a key that is no greater. -/
theorem Sparse.exists_key_le {e : Nat × α} {m m' : List (Nat × α)} (hm : Sparse.wf dflt bound (e :: m))
    (h : Sparse.get dflt (e :: m) e.1 = Sparse.get dflt m' e.1) : ∃ e' ∈ m', e'.1 ≤ e.1 := by
  obtain ⟨-, -, hne⟩ := Sparse.wf_of_wf_cons hm
  by_contra hlt
  refine hne ?_
  rw [← Sparse.get_of_lt dflt m' e.1 (by simpa using hlt), ← h, Sparse.get_cons_self]

/-- The first key of a table in canonical form is at most that of any table it reads like. -/
theorem Sparse.head_key_le {e e' : Nat × α} {m m' : List (Nat × α)} (hm : Sparse.wf dflt bound (e :: m))
    (hm' : Sparse.wf dflt bound (e' :: m')) (h : ∀ a, Sparse.get dflt (e :: m) a = Sparse.get dflt (e' :: m') a) :
    e'.1 ≤ e.1 := by
  obtain ⟨-, hlt, -⟩ := Sparse.wf_of_wf_cons hm'
  obtain ⟨e₁, he₁, hle⟩ := Sparse.exists_key_le hm (h e.1)
  rcases List.mem_cons.1 he₁ with rfl | he₁
  · exact hle
  · exact (hlt e₁ he₁).le.trans hle

/-- Two tables in canonical form with the same entry at every key are the same list. -/
theorem Sparse.ext {m m' : List (Nat × α)} (hm : Sparse.wf dflt bound m) (hm' : Sparse.wf dflt bound m')
    (h : ∀ a, Sparse.get dflt m a = Sparse.get dflt m' a) : m = m' := by
  induction m generalizing m' with
  | nil =>
    cases m' with
    | nil => rfl
    | cons e' m' =>
      obtain ⟨_, hmem, -⟩ := Sparse.exists_key_le hm' (h e'.1).symm
      exact absurd hmem List.not_mem_nil
  | cons e m ih =>
    cases m' with
    | nil =>
      obtain ⟨_, hmem, -⟩ := Sparse.exists_key_le hm (h e.1)
      exact absurd hmem List.not_mem_nil
    | cons e' m' =>
      have hkey : e.1 = e'.1 := (Sparse.head_key_le hm' hm fun a => (h a).symm).antisymm (Sparse.head_key_le hm hm' h)
      have hhead : e = e' := Prod.ext hkey (by
        rw [← Sparse.get_cons_self (dflt := dflt) e m, h, hkey, Sparse.get_cons_self])
      subst hhead
      obtain ⟨htail, hlt, -⟩ := Sparse.wf_of_wf_cons hm
      obtain ⟨htail', hlt', -⟩ := Sparse.wf_of_wf_cons hm'
      rw [ih htail htail' fun a => ?_]
      by_cases ha : e.1 = a
      · rw [← ha, Sparse.get_of_lt dflt m e.1 hlt, Sparse.get_of_lt dflt m' e.1 hlt']
      · have hget := h a
        rwa [Sparse.get, if_neg ha, Sparse.get, if_neg ha] at hget

end Sparse

/-- Settles O60. -/
theorem canonicalFormIsUnique : Obligations.CanonicalFormIsUnique :=
  ⟨fun _ _ => Sparse.ext, fun _ _ => Sparse.ext⟩

/-! ### After reset -/

/-- Outside the font an unlisted address reads as the reset fill. -/
theorem Memory.default_of_le {a : Nat} (h : 80 ≤ a) : Memory.default a = 0x00 :=
  List.getD_eq_default _ _ h

/-- Settles O49, element by element. -/
theorem resetState : Obligations.ResetState := by
  refine ⟨rfl, fun _ => rfl, fun _ _ => rfl, fun a ha => Memory.default_of_le ha, fun r => ?_, rfl, rfl, fun k => ?_,
    rfl, rfl, Screen.pixel_blank, fun k => ?_, rfl, rfl, rfl⟩
  · simp [State.reg]
  · simp
  · simp [State.key]

end Sys2Proof.Machine
end

section
/-! Addresses that were never compiled (20_memory.md R64): the invariant leaves ILLEGAL there, and a Running engine that
finds ILLEGAL at `PC` does nothing but advance. -/

namespace Sys2Proof.Machine

/-- R38 (c) read backwards: an odd address, one below 0x200 and one at or above the write cursor hold ILLEGAL. -/
theorem State.Inv.handler_eq_illegal {s : State} (hi : s.Inv) {a : Nat}
    (ha : a % 2 = 1 ∨ a < 0x200 ∨ s.wc.toNat ≤ a) : s.dispatch.handler a = .illegal := by
  obtain ⟨-, -, hcomp, -⟩ := hi
  by_contra hne
  obtain ⟨heven, hlow, -, hcursor⟩ := hcomp a hne
  omega

/-- R125: where ILLEGAL stands at `PC`, a step is an advance, 0xFFF included. -/
theorem step_of_handler_illegal {s : State} (hb : s.blocked = false) (hpc : s.pc.toNat ≤ 0xFFF)
    (hh : s.dispatch.handler s.pc.toNat = .illegal) : step s = .next s.advance := by
  have hfetch : fetchInstr s = .ok .illegal := by
    rw [fetchInstr, if_neg (Nat.not_lt.2 hpc), if_pos hh]
  rw [step_fetched s .illegal hb hfetch, exec, execIllegal]

theorem State.frame_advance (s : State) : Frame [] [] s s.advance :=
  ⟨fun r _ => State.reg_advance s r, PartsSame.of_eq rfl⟩

/-- Settles O8: no handler was compiled at such a `PC`, so ILLEGAL runs. -/
theorem uncompiledAddressRunsAsNoOp : Obligations.UncompiledAddressRunsAsNoOp := by
  intro s hi hb hpc ha
  exact ⟨s.advance, step_of_handler_illegal hb hpc (hi.handler_eq_illegal ha), State.advance_pc s, s.frame_advance⟩

end Sys2Proof.Machine
end

section
/-! The opcode map and the decoder (30_encoding.md R94 to R96): the row of a handler is a condition on the fields of a
word, and the hierarchical decoder selects by the same fields. -/

namespace Sys2Proof

/-! ### A row of R95 as a condition on the fields -/

/-- A row with mask 0xF000 tests the family. -/
theorem Handler.selects_family_iff {h : Handler} {m : Word} (hrow : h.row = some (0xF000, m)) (hm : m &&& 0xF000 = m)
    (w : Word) : h.selects w = true ↔ opField w = opField m := by
  have hfield : m = formatA (opField m) 0 := hm.symm.trans ((and_family_iff m _).2 rfl)
  rw [Handler.selects, hrow, ← and_family_iff w, ← hfield]
  exact beq_iff_eq

/-- A row with mask 0xF0FF tests the family and the low byte. -/
theorem Handler.selects_byte_iff {h : Handler} {m : Word} (hrow : h.row = some (0xF0FF, m)) (hm : m &&& 0xF0FF = m)
    (w : Word) : h.selects w = true ↔ opField w = opField m ∧ kkField w = kkField m := by
  have hfields : m = formatXK (opField m) 0 (kkField m) := hm.symm.trans ((and_byte_iff m _ _).2 ⟨rfl, rfl⟩)
  rw [Handler.selects, hrow, ← and_byte_iff w, ← hfields]
  exact beq_iff_eq

/-- A row with mask 0xF00F tests the family and the low nibble. -/
theorem Handler.selects_nibble_iff {h : Handler} {m : Word} (hrow : h.row = some (0xF00F, m)) (hm : m &&& 0xF00F = m)
    (w : Word) : h.selects w = true ↔ opField w = opField m ∧ nField w = nField m := by
  have hfields : m = formatXYN (opField m) 0 0 (nField m) := hm.symm.trans ((and_nibble_iff m _ _).2 ⟨rfl, rfl⟩)
  rw [Handler.selects, hrow, ← and_nibble_iff w, ← hfields]
  exact beq_iff_eq

/-! ### The decoder answers the handler whose row selects the word -/

/-- R95 to R94: a word that a row selects decodes to the handler of that row. -/
theorem decode_of_selects {h : Handler} {w : Word} (hsel : h.selects w = true) : decode w = h := by
  rw [decode_eq_decodeMasked]
  cases h with
  | illegal => cases hsel
  | cls | ret | skpVx | sknpVx | ldVxDt | ldVxK | ldDtVx | ldStVx | addIVx | ldFVx | ldBVx | ldMiVx | ldVxMi =>
    obtain ⟨hop, hkk⟩ := (Handler.selects_byte_iff rfl rfl w).1 hsel
    rw [decodeMasked, hop, hkk]; rfl
  | ldVxVy | orVxVy | andVxVy | xorVxVy | addVxVy | subVxVy | shrVx | subnVxVy | shlVx =>
    obtain ⟨hop, hn⟩ := (Handler.selects_nibble_iff rfl rfl w).1 hsel
    rw [decodeMasked, hop, hn]; rfl
  | _ =>
    have hop := (Handler.selects_family_iff rfl rfl w).1 hsel
    rw [decodeMasked, hop]; rfl

/-- What R94 promises of the handler it answers for `w`: it is ILLEGAL, or its row selects `w`. -/
def Handler.IllegalOrSelects (w : Word) (h : Handler) : Prop :=
  h = .illegal ∨ h.selects w = true

theorem Handler.IllegalOrSelects.illegal {w : Word} : IllegalOrSelects w .illegal := .inl rfl

/-- A branch of the decoder on the family keeps the promise when the row of its handler has that family. -/
theorem Handler.IllegalOrSelects.ite_family {w m : Word} {op : Nibble} {h e : Handler} (hrow : h.row = some (0xF000, m))
    (hm : m &&& 0xF000 = m) (hop : opField m = op) (he : ¬ opField w = op → e.IllegalOrSelects w) :
    (if opField w = op then h else e).IllegalOrSelects w :=
  iteInduction (fun hw => .inr ((selects_family_iff hrow hm w).2 (hw.trans hop.symm))) he

/-- A branch of the decoder on the low byte keeps the promise when the row of its handler has that byte. -/
theorem Handler.IllegalOrSelects.ite_byte {w m : Word} {kk : Byte} {h e : Handler} (hrow : h.row = some (0xF0FF, m))
    (hm : m &&& 0xF0FF = m) (hkk : kkField m = kk) (hop : opField w = opField m) (he : e.IllegalOrSelects w) :
    (if kkField w = kk then h else e).IllegalOrSelects w :=
  iteInduction (fun hw => .inr ((selects_byte_iff hrow hm w).2 ⟨hop, hw.trans hkk.symm⟩)) fun _ => he

/-- A branch of the decoder on the low nibble keeps the promise when the row of its handler has that nibble. -/
theorem Handler.IllegalOrSelects.ite_nibble {w m : Word} {n : Nibble} {h e : Handler}
    (hrow : h.row = some (0xF00F, m)) (hm : m &&& 0xF00F = m) (hn : nField m = n) (hop : opField w = opField m)
    (he : e.IllegalOrSelects w) : (if nField w = n then h else e).IllegalOrSelects w :=
  iteInduction (fun hw => .inr ((selects_nibble_iff hrow hm w).2 ⟨hop, hw.trans hn.symm⟩)) fun _ => he

open Handler.IllegalOrSelects

theorem illegalOrSelects_decodeFamily0 {w : Word} (hop : opField w = 0x0) :
    (decodeFamily0 (kkField w)).IllegalOrSelects w := by
  unfold decodeFamily0
  iterate 2 refine ite_byte rfl rfl rfl hop ?_
  exact illegal

theorem illegalOrSelects_decodeFamily8 {w : Word} (hop : opField w = 0x8) :
    (decodeFamily8 (nField w)).IllegalOrSelects w := by
  unfold decodeFamily8
  iterate 9 refine ite_nibble rfl rfl rfl hop ?_
  exact illegal

theorem illegalOrSelects_decodeFamilyE {w : Word} (hop : opField w = 0xE) :
    (decodeFamilyE (kkField w)).IllegalOrSelects w := by
  unfold decodeFamilyE
  iterate 2 refine ite_byte rfl rfl rfl hop ?_
  exact illegal

theorem illegalOrSelects_decodeFamilyF {w : Word} (hop : opField w = 0xF) :
    (decodeFamilyF (kkField w)).IllegalOrSelects w := by
  unfold decodeFamilyF
  iterate 9 refine ite_byte rfl rfl rfl hop ?_
  exact illegal

/-- R94 to R95: the handler that a word decodes to selects it, unless it is ILLEGAL. The branches are the decoder's. -/
theorem illegalOrSelects_decode (w : Word) : (decode w).IllegalOrSelects w := by
  rw [decode_eq_decodeMasked]
  exact
    iteInduction illegalOrSelects_decodeFamily0 fun h0 =>
    ite_family rfl rfl rfl fun h1 =>
    ite_family rfl rfl rfl fun h2 =>
    ite_family rfl rfl rfl fun h3 =>
    ite_family rfl rfl rfl fun h4 =>
    ite_family rfl rfl rfl fun h5 =>
    ite_family rfl rfl rfl fun h6 =>
    ite_family rfl rfl rfl fun h7 =>
    iteInduction illegalOrSelects_decodeFamily8 fun h8 =>
    ite_family rfl rfl rfl fun h9 =>
    ite_family rfl rfl rfl fun hA =>
    ite_family rfl rfl rfl fun hB =>
    ite_family rfl rfl rfl fun hC =>
    ite_family rfl rfl rfl fun hD =>
    iteInduction illegalOrSelects_decodeFamilyE fun hE =>
    illegalOrSelects_decodeFamilyF (by bv_omega)

/-- Settles O11: a row that selects a word fixes its handler, and only a word without a row is ILLEGAL. -/
theorem decoderFollowsOpcodeMap : Obligations.DecoderFollowsOpcodeMap := by
  intro w
  constructor
  · intro h hh
    refine ⟨?_, decode_of_selects⟩
    rintro rfl
    exact (illegalOrSelects_decode w).resolve_left hh
  · constructor
    · intro hw h
      by_contra hsel
      rw [Bool.not_eq_false] at hsel
      obtain rfl : h = .illegal := (decode_of_selects hsel).symm.trans hw
      cases hsel
    · intro hnone
      exact (illegalOrSelects_decode w).resolve_right (by simp [hnone])

end Sys2Proof
end

section
/-! Decoding undoes encoding (30_encoding.md R91, R93, R95, R97), and the bits that no mask tests and no field uses are
free in every word but those of ILLEGAL. -/

namespace Sys2Proof.Laws.OpcodeMap

/-- The opcode map holds of every instruction. -/
theorem statement_of_instr : ∀ i : Instr, Statement i
  | .cls => cls
  | .ret => ret
  | .jpNnn nnn => jpNnn nnn
  | .callNnn nnn => callNnn nnn
  | .seVxKk x kk => seVxKk x kk
  | .sneVxKk x kk => sneVxKk x kk
  | .seVxVy x y => seVxVy x y
  | .ldVxKk x kk => ldVxKk x kk
  | .addVxKk x kk => addVxKk x kk
  | .ldVxVy x y => ldVxVy x y
  | .orVxVy x y => orVxVy x y
  | .andVxVy x y => andVxVy x y
  | .xorVxVy x y => xorVxVy x y
  | .addVxVy x y => addVxVy x y
  | .subVxVy x y => subVxVy x y
  | .shrVx x => shrVx x
  | .subnVxVy x y => subnVxVy x y
  | .shlVx x => shlVx x
  | .sneVxVy x y => sneVxVy x y
  | .ldINnn nnn => ldINnn nnn
  | .jpV0Nnn nnn => jpV0Nnn nnn
  | .rndVxKk x kk => rndVxKk x kk
  | .drwVxVyN x y n => drwVxVyN x y n
  | .skpVx x => skpVx x
  | .sknpVx x => sknpVx x
  | .ldVxDt x => ldVxDt x
  | .ldVxK x => ldVxK x
  | .ldDtVx x => ldDtVx x
  | .ldStVx x => ldStVx x
  | .addIVx x => addIVx x
  | .ldFVx x => ldFVx x
  | .ldBVx x => ldBVx x
  | .ldMiVx x => ldMiVx x
  | .ldVxMi x => ldVxMi x
  | .illegal => illegal

end Sys2Proof.Laws.OpcodeMap

namespace Sys2Proof

/-! ### The canonical word decodes to its instruction -/

/-- R95: the row of an instruction's handler selects its canonical word. -/
theorem selects_encode {i : Instr} (hi : i ≠ .illegal) : i.handler.selects (encode i) = true :=
  (Laws.OpcodeMap.statement_of_instr i rfl).resolve_left hi

/-- The operand fields that a handler cuts from the canonical word are the operands. -/
theorem instr_encode (i : Instr) : i.handler.instr (encode i) = i := by
  cases i <;> simp [Instr.handler, Handler.instr, encode]

theorem decode_encode (i : Instr) : decode (encode i) = i.handler := by
  by_cases hi : i = .illegal
  · rw [hi]; decide
  · exact decode_of_selects (selects_encode hi)

@[simp] theorem decodeWord_encode (i : Instr) : decodeWord (encode i) = i := by
  rw [decodeWord, decode_encode, instr_encode]

/-- A word laid out in memory order and decoded is the word decoded; what follows is left alone (R62, R90). -/
@[simp] theorem decodeBytes_wordBytes_append (w : Word) (rest : List Byte) :
    decodeBytes (wordBytes w ++ rest) = .ok (decodeWord w, rest) := by
  rw [wordBytes, List.cons_append, List.cons_append, List.nil_append, decodeBytes, hiByte_append_loByte]

/-- Settles O10. -/
theorem decodeOfEncodeIsIdentity : Obligations.DecodeOfEncodeIsIdentity := by
  intro i rest _
  exact ⟨decodeWord_encode i, by rw [decodeBytes_wordBytes_append, decodeWord_encode]⟩

/-- Settles O9: eleven of the words are canonical, and no branch of family 0x8 has the low nibble 8. -/
theorem wordsOfTheSpecDecode : Obligations.WordsOfTheSpecDecode :=
  ⟨decodeWord_encode .cls, decodeWord_encode .ret, decodeWord_encode (.jpNnn 0x350),
    decodeWord_encode (.seVxKk 0x2 0x99), decodeWord_encode (.seVxVy 0x1 0x2), decodeWord_encode (.addVxVy 0x1 0x2),
    decodeWord_encode (.ldINnn 0x300), decodeWord_encode (.drwVxVyN 0x0 0x1 0x4), decodeWord_encode (.skpVx 0x1),
    decodeWord_encode (.ldVxK 0x3), decodeWord_encode (.ldMiVx 0x2), by decide⟩

/-! ### The ignored bits -/

/-- No mask of R95 covers an ignored bit of its row. -/
theorem Handler.not_ignoredBits_and_mask {h : Handler} {mask m : Word} (hrow : h.row = some (mask, m)) :
    ~~~h.ignoredBits &&& mask = mask := by
  cases h <;> cases hrow <;> rfl

theorem Handler.selects_and_not_ignoredBits (h : Handler) (w : Word) :
    h.selects (w &&& ~~~h.ignoredBits) = h.selects w := by
  rw [Handler.selects, Handler.selects]
  cases hrow : h.row with
  | none => rfl
  | some r =>
    simp only [BitVec.and_assoc, not_ignoredBits_and_mask (mask := r.1) (m := r.2) hrow]

/-- No operand field of a handler's format has an ignored bit. -/
theorem Handler.instr_and_not_ignoredBits (h : Handler) (w : Word) :
    h.instr (w &&& ~~~h.ignoredBits) = h.instr w := by
  rw [← formatXYN_fields w]
  cases h with
  | cls | ret => rfl
  | seVxVy | sneVxVy =>
    rw [ignoredBits, show (~~~0x000F : Word) = formatXYN 0xF 0xF 0xF 0 from rfl]
    simp only [formatXYN_and, nibble_and_ones]
    simp [instr]
  | shrVx | shlVx =>
    rw [ignoredBits, show (~~~0x00F0 : Word) = formatXYN 0xF 0xF 0 0xF from rfl]
    simp only [formatXYN_and, nibble_and_ones]
    simp [instr]
  | _ => exact congrArg _ BitVec.and_allOnes

/-- Settles O12: the row selects the word as it selects the canonical one, and the operands are cut alike. -/
theorem ignoredBitsAreIgnored : Obligations.IgnoredBitsAreIgnored := by
  intro i w hi hw
  have hsel : i.handler.selects w = true := by
    rw [← Handler.selects_and_not_ignoredBits, hw]
    exact selects_encode hi
  calc decodeWord w
      = i.handler.instr w := by rw [decodeWord, decode_of_selects hsel]
    _ = i.handler.instr (encode i) := by rw [← hw, Handler.instr_and_not_ignoredBits]
    _ = i := instr_encode i

end Sys2Proof
end

section
/-! The engine (40_dispatch_engine.md R120 to R127): what a step fetches and runs, the loop of `step(n)`, and the one
instruction that leads from Running to Blocked. -/

namespace Sys2Proof.Machine

/-! ### One step -/

/-- R126: above memory there is nothing to fetch. -/
theorem fetchInstr_above {s : State} (hpc : 0xFFF < s.pc.toNat) : fetchInstr s = .error .fetchRange := if_pos hpc

/-- R120, R127: where a whole word fits at `PC` the fetch is the handler there, ILLEGAL included, on the fields of that
word. -/
theorem fetchInstr_word {s : State} (hpc : s.pc.toNat < 0xFFF) :
    fetchInstr s = .ok ((s.dispatch.handler s.pc.toNat).instr
      (s.mem.read s.pc.toNat ++ s.mem.read (s.pc.toNat + 1))) := by
  rcases fetchInstr_cases s with ⟨h, -⟩ | ⟨-, hh, e⟩ | ⟨-, -, e⟩ | ⟨h, -⟩
  · omega
  · rw [e, hh, Handler.instr]
  · exact e
  · omega

/-- A handler keeps its name whatever operands it is given. -/
@[simp] theorem handler_instr (h : Handler) (w : Word) : (h.instr w).handler = h := by cases h <;> rfl

/-- The handler of a word's instruction, on the fields of that word, is the instruction. -/
theorem instr_handler_decodeWord (w : Word) : (decodeWord w).handler.instr w = decodeWord w := by
  rw [decodeWord, handler_instr]

/-- Settles O1, by the fetch of a whole word. -/
theorem stepRunsDispatchedInstruction : Obligations.StepRunsDispatchedInstruction := by
  intro s hb hpc
  have hstep := step_fetched s _ hb (fetchInstr_word hpc)
  refine ⟨fun _ => hstep, fun i _ hdec hh => ?_⟩
  obtain ⟨rfl, -⟩ := Prod.mk.inj (Except.ok.inj hdec)
  rw [hstep, hh, instr_handler_decodeWord]

/-- Settles O3. -/
theorem fetchAboveMemoryFaults : Obligations.FetchAboveMemoryFaults :=
  fun s hb hpc => step_fetch_fault s _ hb (fetchInstr_above hpc)

/-- Settles O7: ILLEGAL is the advance of `PC`, and the decoder answers it where no row selects. -/
theorem illegalAdvancesAndNothingElse : Obligations.IllegalAdvancesAndNothingElse := by
  refine ⟨fun s => ⟨s.advance, rfl, State.advance_pc s, s.frame_advance⟩, fun s hb hpc hh =>
    ⟨s.advance, step_of_handler_illegal hb hpc hh, State.advance_pc s, s.frame_advance⟩, fun w hnone => ?_⟩
  rw [decodeWord, (decoderFollowsOpcodeMap w).2.2 hnone, Handler.instr]

/-- Settles O6: of all instructions only LD Vx,K writes Blocked, and it sets Blocked when it has no key to consume. -/
theorem onlyKeyWaitBlocks : Obligations.OnlyKeyWaitBlocks := by
  intro i s t hb h
  by_cases hk : ∃ x, i = .ldVxK x
  · obtain ⟨x, rfl⟩ := hk
    rcases execLdVxK_cases x s with ⟨hkey, e⟩ | ⟨k, hkey, e⟩
    · obtain rfl := Host.Outcome.next.inj (e.symm.trans h)
      simp [hkey]
    · obtain rfl := Host.Outcome.next.inj (e.symm.trans h)
      simp [hkey]
  · have hw : Part.blocked.writtenBy i = false := by
      cases i with
      | ldVxK x => exact absurd ⟨x, rfl⟩ hk
      | _ => rfl
    have hsame : t.blocked = s.blocked := onlyWritersChangeAnElement i s t .blocked h hw
    simp [hsame, hb, hk]

/-! ### The loop of `step(n)` -/

/-- R123: `step(n)` changes nothing while Blocked. -/
theorem stepN_blocked (n : Nat) {s : State} (hb : s.blocked = true) : stepN n s = .next s := by
  cases n with
  | zero => rfl
  | succ n => exact if_pos hb

/-- Settles O2. -/
theorem stepLoopStopsWhenBlocked : Obligations.StepLoopStopsWhenBlocked := fun s n =>
  ⟨rfl, fun hb => ⟨step_blocked s hb, stepN_blocked n hb⟩,
    fun hb hpc => stepN_succ_fault n hb (fetchAboveMemoryFaults s hb hpc), fun hb _ => stepN_succ_next n hb⟩

/-- The loop goes on where its first part ended; if that was early, on Blocked, it ends there too. -/
theorem stepN_add_next {a : Nat} {s t : State} (b : Nat) (h : stepN a s = .next t) :
    stepN (a + b) s = stepN b t := by
  fun_induction stepN a s with
  | case1 s => rw [Nat.zero_add, Host.Outcome.next.inj h]
  | case2 a s hb => rw [← Host.Outcome.next.inj h, stepN_blocked _ hb, stepN_blocked _ hb]
  | case3 a s hb s' e ih => rw [Nat.succ_add, stepN_succ_next _ (by simpa using hb) e, ih h]
  | case4 | case5 => exact nomatch h

/-- A fault of the first part of the loop is the fault of the whole. -/
theorem stepN_add_fault {a : Nat} {s : State} {f : Fault} (b : Nat) (h : stepN a s = .fault f) :
    stepN (a + b) s = .fault f := by
  fun_induction stepN a s with
  | case3 a s hb s' e ih => rw [Nat.succ_add, stepN_succ_next _ (by simpa using hb) e, ih h]
  | case4 a s hb f' e => rw [Nat.succ_add, stepN_succ_fault _ (by simpa using hb) e, Host.Outcome.fault.inj h]
  | case1 | case2 | case5 => exact nomatch h

/-- Settles O4. -/
theorem stepSumIsStepThenStep : Obligations.StepSumIsStepThenStep :=
  fun _ b _ => ⟨fun _ => stepN_add_next b, fun _ => stepN_add_fault b⟩

/-- One step of a core's run. -/
theorem coreRun_succ_next {M : Host.Core} {s t : M.State} (n : Nat) (h : M.step s = .next t) :
    M.run (n + 1) s = M.run n t := by
  rw [Host.Core.run, h]

theorem coreRun_succ_fault {M : Host.Core} {s : M.State} {f : M.Fault} (n : Nat) (h : M.step s = .fault f) :
    M.run (n + 1) s = .fault f := by
  rw [Host.Core.run, h]

/-- R124: a Blocked engine steps to itself for ever. -/
theorem coreRun_blocked (n : Nat) {s : State} (hb : s.blocked = true) : core.run n s = .next s := by
  induction n with
  | zero => rfl
  | succ n ih => exact (coreRun_succ_next (M := core) n (step_blocked s hb)).trans ih

/-- Settles O5: the loop and the core's run take the same steps, and where the loop stops early the run stands still. -/
theorem stepLoopIsCoreRun : Obligations.StepLoopIsCoreRun := by
  intro n s
  fun_induction stepN n s with
  | case1 s => rfl
  | case2 n s hb => exact (coreRun_blocked _ hb).symm
  | case3 n s hb s' e ih => exact ih.trans (coreRun_succ_next (M := core) n e).symm
  | case4 n s hb f e => exact (coreRun_succ_fault (M := core) n e).symm
  | case5 n s hb r e => exact absurd e (step_ne_refused s r)

end Sys2Proof.Machine
end

section
/-! `compile` and `load` (40_dispatch_engine.md R121, R122): both place an image at the write cursor, a word being the
image of its two bytes; then what an image that is placed leaves in memory and in the dispatch table. -/

namespace Sys2Proof

/-! ### The two bytes of a word (20_memory.md R62) -/

theorem toNat_hiByte (w : Word) : (hiByte w).toNat = w.toNat / 256 := by
  rw [hiByte, BitVec.extractLsb'_toNat, Nat.shiftRight_eq_div_pow]
  omega

theorem toNat_loByte (w : Word) : (loByte w).toNat = w.toNat % 256 := by
  rw [loByte, BitVec.extractLsb'_toNat, Nat.shiftRight_zero]

/-- The bytes of a word made of two bytes are those two. -/
theorem wordBytes_append (hi lo : Byte) : wordBytes (hi ++ lo) = [hi, lo] := by
  have hhi : hiByte (hi ++ lo) = hi := BitVec.eq_of_toNat_eq (by rw [toNat_hiByte, toNat_byteAppend]; omega)
  have hlo : loByte (hi ++ lo) = lo := BitVec.eq_of_toNat_eq (by rw [toNat_loByte, toNat_byteAppend]; omega)
  rw [wordBytes, hhi, hlo]

/-- R122: the preconditions of `load` are conditions on the length of the image. -/
theorem imageEven_iff {bytes : List Byte} : imageEven bytes = true ↔ bytes.length % 2 = 0 := beq_iff_eq

theorem imageFits_iff {bytes : List Byte} : imageFits bytes = true ↔ bytes.length ≤ 3584 := decide_eq_true_iff

end Sys2Proof

namespace Sys2Proof.Machine

/-! ### The handlers of an image -/

/-- The dispatch table after the handler of each pair of bytes is entered where the pair stands, the first at `a`. -/
def DispatchTable.setPairs (d : DispatchTable) (a : Nat) : List Byte → DispatchTable
  | hi :: lo :: rest => (d.set a (decode (hi ++ lo))).setPairs (a + 2) rest
  | [] => d
  | [_] => d

theorem DispatchTable.handler_set_ne (d : DispatchTable) {a c : Nat} (h : Handler) (hc : c ≠ a) :
    (d.set a h).handler c = d.handler c :=
  Sparse.get_set_ne DispatchTable.default d a c h hc

/-- Outside the image, and at the second byte of each of its pairs, every handler is as before (the spec's D24). -/
theorem DispatchTable.handler_setPairs_outside (d : DispatchTable) {a c : Nat} {bytes : List Byte}
    (hc : c < a ∨ a + bytes.length ≤ c ∨ c % 2 ≠ a % 2) : (d.setPairs a bytes).handler c = d.handler c := by
  fun_induction setPairs d a bytes with
  | case1 d a hi lo rest ih =>
    rw [List.length_cons, List.length_cons] at hc
    rw [ih (by omega), handler_set_ne d _ (by omega)]
  | case2 | case3 => rfl

/-- The `k`-th pair of the image has its handler. -/
theorem DispatchTable.handler_setPairs {d : DispatchTable} (hd : d.wf) {a k : Nat} {bytes : List Byte}
    (hk : 2 * k + 1 < bytes.length) (hle : a + bytes.length ≤ 0x1000) :
    (d.setPairs a bytes).handler (a + 2 * k) = decode (bytes.getD (2 * k) 0 ++ bytes.getD (2 * k + 1) 0) := by
  fun_induction setPairs d a bytes generalizing k with
  | case1 d a hi lo rest ih =>
    rw [List.length_cons, List.length_cons] at hk hle
    cases k with
    | zero =>
      rw [handler_setPairs_outside _ (by omega), handler_set hd, if_pos (by omega)]
      rfl
    | succ k =>
      rw [show a + 2 * (k + 1) = a + 2 + 2 * k by omega, ih (wf_set hd (by omega) _) (by omega) (by omega)]
      rfl
  | case2 | case3 => simp at hk

/-! ### An image placed at the write cursor -/

/-- `s` with the image in memory at `WC`, the handlers of its pairs in the dispatch table and `WC` behind it. -/
def State.withImage (s : State) (bytes : List Byte) : State :=
  { s with
    mem := s.mem.writes s.wc.toNat bytes
    dispatch := s.dispatch.setPairs s.wc.toNat bytes
    wc := s.wc + BitVec.ofNat 16 bytes.length }

theorem State.wc_withImage {s : State} {bytes : List Byte} (h : s.wc.toNat + bytes.length ≤ 0x1000) :
    (s.withImage bytes).wc.toNat = s.wc.toNat + bytes.length := by
  rw [withImage, BitVec.toNat_add, BitVec.toNat_ofNat]
  omega

@[simp] theorem State.withImage_nil (s : State) : s.withImage [] = s := by
  rw [withImage, List.length_nil, show s.wc + BitVec.ofNat 16 0 = s.wc from BitVec.add_zero s.wc]
  rfl

/-- Placing an image touches memory, the dispatch table and `WC` only. -/
theorem State.frame_withImage (s : State) (bytes : List Byte) :
    Frame [] [.mem, .dispatch, .wc] s (s.withImage bytes) := by
  refine ⟨fun _ _ => rfl, fun p hp => ?_⟩
  cases p with
  | mem | dispatch | wc => simp at hp
  | _ => rfl

/-- A pair placed and then the rest of an image is the whole image placed. -/
theorem State.withImage_pair_withImage {s : State} (hi lo : Byte) (rest : List Byte) (h : s.wc.toNat ≤ 0xFFE) :
    (s.withImage [hi, lo]).withImage rest = s.withImage (hi :: lo :: rest) := by
  have hwc : (s.withImage [hi, lo]).wc.toNat = s.wc.toNat + 2 := wc_withImage (by simpa using h)
  have hend : s.wc + BitVec.ofNat 16 2 + BitVec.ofNat 16 rest.length = s.wc + BitVec.ofNat 16 (rest.length + 2) := by
    rw [BitVec.add_assoc, ← BitVec.ofNat_add, Nat.add_comm]
  rw [withImage, hwc]
  simp only [withImage, List.length_cons, List.length_nil, Nat.zero_add, Nat.reduceAdd, hend]
  rfl

/-- R121: with room at `WC`, `compile` places the image of its word. -/
theorem compile_eq_withImage (w : Word) {s : State} (h : s.wc.toNat ≤ 0xFFE) :
    compile w s = .next (s.withImage (wordBytes w)) := by
  rcases compile_cases w s with ⟨-, e⟩ | ⟨hgt, -⟩
  · rw [e, State.withImage, wordBytes, DispatchTable.setPairs, hiByte_append_loByte]
    rfl
  · omega

/-- R122: with room at `WC` for all of its pairs, an image is placed pair by pair. -/
theorem compilePairs_eq_withImage : ∀ (bytes : List Byte) {s : State}, bytes.length % 2 = 0 →
    s.wc.toNat + bytes.length ≤ 0x1000 → compilePairs bytes s = .next (s.withImage bytes)
  | [], s, _, _ => by rw [compilePairs, State.withImage_nil]
  | [_], _, heven, _ => absurd heven Nat.one_ne_zero
  | hi :: lo :: rest, s, heven, hle => by
    rw [List.length_cons, List.length_cons] at heven hle
    have hroom : s.wc.toNat ≤ 0xFFE := by omega
    have hwc : (s.withImage [hi, lo]).wc.toNat = s.wc.toNat + 2 := State.wc_withImage (by simpa using hroom)
    have hrest := compilePairs_eq_withImage rest (s := s.withImage [hi, lo]) (by omega) (by omega)
    rw [compilePairs, compile_eq_withImage _ hroom, wordBytes_append]
    rw [← State.withImage_pair_withImage hi lo rest hroom]
    exact hrest

/-- R122: `load` of a well-formed image places it on the reset machine. -/
theorem load_eq_withImage {bytes : List Byte} (s : State) (heven : bytes.length % 2 = 0) (hle : bytes.length ≤ 3584) :
    load bytes s = .next (s.hostReset.withImage bytes) := by
  rw [load, if_neg (by simp [imageEven_iff, heven]), if_neg (by simp [imageFits_iff, hle])]
  refine compilePairs_eq_withImage bytes heven ?_
  show 0x200 + bytes.length ≤ 0x1000
  omega

/-- Settles O52: the first precondition that fails decides. -/
theorem loadRefusesBadImage : Obligations.LoadRefusesBadImage := by
  intro bytes s
  refine ⟨fun hodd => ?_, fun heven hlong => ?_⟩
  · have hbad : imageEven bytes = false := by simp [← Bool.not_eq_true, imageEven_iff, hodd]
    rw [load, if_pos hbad]
  · have hbad : imageFits bytes = false := by simp [← Bool.not_eq_true, imageFits_iff, hlong]
    rw [load, if_neg (by simp [imageEven_iff, heven]), if_pos hbad]

/-- Settles O50: the image of the word is its high byte and its low byte, with one handler. -/
theorem compileWritesWordAndHandler : Obligations.CompileWritesWordAndHandler := by
  intro w s hm hd
  refine ⟨fun hle => ⟨s.withImage (wordBytes w), compile_eq_withImage w hle, ?_⟩, fun hgt => if_pos hgt⟩
  have hlen : (wordBytes w).length = 2 := rfl
  have hroom : s.wc.toNat + (wordBytes w).length ≤ 0x1000 := by omega
  have hhi : (s.withImage (wordBytes w)).mem.read s.wc.toNat = hiByte w :=
    Memory.read_writes hm s.wc.toNat 0 _ (by omega) hroom
  have hlo : (s.withImage (wordBytes w)).mem.read (s.wc.toNat + 1) = loByte w :=
    Memory.read_writes hm s.wc.toNat 1 _ (by omega) hroom
  have hhandler : (s.withImage (wordBytes w)).dispatch.handler s.wc.toNat = decode (hiByte w ++ loByte w) :=
    DispatchTable.handler_setPairs (k := 0) hd (by omega) hroom
  refine ⟨hhi ▸ toNat_hiByte w, hlo ▸ toNat_loByte w, fun a ha => ?_, by rw [hhandler, hiByte_append_loByte],
    fun a ha => ?_, State.wc_withImage hroom, rfl, s.frame_withImage _⟩
  · exact Memory.read_writes_outside _ _ _ _ (by omega)
  · exact DispatchTable.handler_setPairs_outside _ (by omega)

/-- Settles O51: the image is placed on the reset machine, whose cursor is at 0x200. -/
theorem loadPlacesImage : Obligations.LoadPlacesImage := by
  intro bytes s hwf
  obtain ⟨heven, hfits⟩ := Bool.and_eq_true_iff.1 hwf
  rw [imageEven_iff] at heven
  rw [imageFits_iff] at hfits
  obtain ⟨⟨hm, hd⟩, -⟩ := hostReset_inv s
  have hroom : 0x200 + bytes.length ≤ 0x1000 := by omega
  refine ⟨s.hostReset.withImage bytes, load_eq_withImage s heven hfits, fun j hj => ?_, fun a ha => ?_,
    fun k hk => ?_, fun a ha => ?_, State.wc_withImage (s := s.hostReset) hroom, rfl, fun _ _ => rfl, fun p hp => ?_⟩
  · exact Memory.read_writes hm 0x200 j bytes hj hroom
  · exact Memory.read_writes_outside _ 0x200 a bytes ha
  · exact DispatchTable.handler_setPairs (a := 0x200) hd (by omega) hroom
  · exact DispatchTable.handler_setPairs_outside s.hostReset.dispatch (a := 0x200) (by omega)
  · cases p with
    | mem | dispatch | wc | draws => simp at hp
    | _ => rfl

end Sys2Proof.Machine
end

section
/-! Control transfer (41_control.md R140 to R148): what each of the state operations leaves unchanged, `drop` as the
undoing of `push`, and from these JP, CALL, RET, JP V0 and the skips. -/

namespace Sys2Proof

/-! ### The value of a zero-extension (00_scope.md R10) -/

@[simp] theorem Addr12.toNat_zext16 (a : Addr12) : a.zext16.toNat = a.toNat := BitVec.toNat_setWidth_of_le (by decide)

@[simp] theorem Byte.toNat_zext16 (b : Byte) : b.zext16.toNat = b.toNat := BitVec.toNat_setWidth_of_le (by decide)

@[simp] theorem Nibble.toNat_zext8 (k : Nibble) : k.zext8.toNat = k.toNat := BitVec.toNat_setWidth_of_le (by decide)

end Sys2Proof

namespace Sys2Proof.Machine

/-! ### Frames of the state operations -/

theorem Part.Same.trans {p : Part} {s t u : State} (hst : p.Same s t) (htu : p.Same t u) : p.Same s u := by
  cases p with
  | mem | dispatch => exact fun a => (htu a).trans (hst a)
  | _ => exact Eq.trans htu hst

/-- What neither of two changes touches is unchanged after both. -/
theorem Frame.trans {regs regs' : List Nibble} {parts parts' : List Part} {s t u : State}
    (hst : Frame regs parts s t) (htu : Frame regs' parts' t u) : Frame (regs ++ regs') (parts ++ parts') s u := by
  obtain ⟨hregs, hparts⟩ := hst
  obtain ⟨hregs', hparts'⟩ := htu
  refine ⟨fun r hr => ?_, fun p hp => ?_⟩
  · obtain ⟨hr, hr'⟩ := not_or.1 (mt List.mem_append.2 hr)
    exact (hregs' r hr').trans (hregs r hr)
  · obtain ⟨hp, hp'⟩ := not_or.1 (mt List.mem_append.2 hp)
    exact (hparts p hp).trans (hparts' p hp')

theorem State.frame_jump (s : State) (w : Word) : Frame [] [] s (s.jump w) :=
  ⟨fun r _ => State.reg_jump s w r, PartsSame.of_eq rfl⟩

theorem State.frame_skipIf (s : State) (c : Bool) : Frame [] [] s (s.skipIf c) :=
  ⟨fun r _ => State.reg_skipIf s c r, PartsSame.of_eq rfl⟩

theorem State.frame_push (s : State) (w : Word) : Frame [] [.stack, .sp] s (s.push w) := by
  refine ⟨fun r _ => State.reg_push s w r, fun p hp => ?_⟩
  cases p with
  | stack | sp => simp at hp
  | _ => simp [Part.Same]

theorem State.frame_drop (s : State) : Frame [] [.sp] s s.drop := by
  refine ⟨fun r _ => State.reg_drop s r, fun p hp => ?_⟩
  cases p with
  | sp => simp at hp
  | _ => simp [Part.Same]

/-! ### The call stack (10_state.md R26) -/

theorem State.toNat_spReg (s : State) : s.spReg.toNat = s.sp.toNat := Nibble.toNat_zext8 s.sp

theorem State.toNat_spReg_push (s : State) (w : Word) : (s.push w).spReg.toNat = (s.spReg.toNat + 1) % 16 := by
  rw [toNat_spReg, toNat_spReg, push_sp, BitVec.toNat_add]
  rfl

theorem State.toNat_spReg_drop (s : State) : s.drop.spReg.toNat = (s.spReg.toNat + 15) % 16 := by
  rw [toNat_spReg, toNat_spReg, drop_sp]
  bv_omega

/-- After a push, at every depth, `SP` steps back to where it was. -/
theorem State.sp_drop_push (s : State) (w : Word) : (s.push w).drop.sp = s.sp := by
  rw [drop_sp, push_sp, BitVec.add_sub_cancel]

/-- After a push the value that `Pop()` returns is the one pushed. -/
theorem State.top_push (s : State) (w : Word) : (s.push w).top = w := by
  rw [top, stack_push, push_sp, BitVec.add_sub_cancel, if_pos rfl]

/-! ### The meanings of the instructions -/

theorem exec_jpNnn (nnn : Addr12) (s : State) : exec (.jpNnn nnn) s = .next (s.jump nnn.zext16) := rfl

theorem exec_callNnn (nnn : Addr12) (s : State) :
    exec (.callNnn nnn) s = .next ((s.push (returnAddr s)).jump nnn.zext16) := rfl

theorem exec_ret (s : State) : exec .ret s = .next (s.drop.jump s.top) := rfl

theorem exec_jpV0Nnn (nnn : Addr12) (s : State) : exec (.jpV0Nnn nnn) s = .next (s.jump (jumpV0Target s nnn)) := rfl

theorem exec_seVxKk (x : Nibble) (kk : Byte) (s : State) :
    exec (.seVxKk x kk) s = .next (s.skipIf (s.reg x == kk)) := rfl

theorem exec_sneVxKk (x : Nibble) (kk : Byte) (s : State) :
    exec (.sneVxKk x kk) s = .next (s.skipIf (s.reg x != kk)) := rfl

theorem exec_seVxVy (x y : Nibble) (s : State) : exec (.seVxVy x y) s = .next (s.skipIf (s.reg x == s.reg y)) := rfl

theorem exec_sneVxVy (x y : Nibble) (s : State) : exec (.sneVxVy x y) s = .next (s.skipIf (s.reg x != s.reg y)) := rfl

/-! ### Call and return -/

theorem State.frame_call (s : State) (w target : Word) : Frame [] [.stack, .sp] s ((s.push w).jump target) :=
  (s.frame_push w).trans ((s.push w).frame_jump target)

theorem State.frame_return (s : State) : Frame [] [.sp] s (s.drop.jump s.top) :=
  s.frame_drop.trans (s.drop.frame_jump s.top)

/-- Settles O16: the return drops what the call pushed, so `SP` is restored and only the pushed entry stays changed. -/
theorem returnUndoesCall : Obligations.ReturnUndoesCall := by
  intro nnn s t h
  obtain rfl := Host.Outcome.next.inj ((exec_callNnn nnn s).symm.trans h)
  have hsp := s.sp_drop_push (returnAddr s)
  obtain ⟨hregs, hparts⟩ := (s.frame_call (returnAddr s) nnn.zext16).trans (State.frame_return _)
  refine ⟨_, exec_ret _, s.top_push (returnAddr s), hsp, hregs, fun p hp => ?_⟩
  by_cases hpsp : p = .sp
  · subst hpsp
    exact hsp
  · exact hparts p (by simpa [hpsp] using hp)

/-- Settles O14. -/
theorem callPushesReturnAddress : Obligations.CallPushesReturnAddress := by
  intro nnn s
  refine ⟨_, exec_callNnn nnn s, Addr12.toNat_zext16 nnn, ?_, fun k hk => ?_, s.toNat_spReg_push (returnAddr s),
    s.frame_call _ _⟩
  · rw [State.jump_stack, State.stack_push, if_pos rfl, returnAddr, BitVec.toNat_add]
    rfl
  · rw [State.jump_stack, State.stack_push, if_neg hk]

/-- Settles O15. -/
theorem returnPopsStack : Obligations.ReturnPopsStack := fun s =>
  ⟨_, exec_ret s, s.toNat_spReg_drop, rfl, s.frame_return⟩

/-! ### Jumps -/

/-- Settles O13. -/
theorem jumpGoesToAddress : Obligations.JumpGoesToAddress := fun nnn s =>
  ⟨_, exec_jpNnn nnn s, Addr12.toNat_zext16 nnn, s.frame_jump _⟩

/-- R144: the sum fits 16 bits, so it is the sum of the two naturals. -/
theorem toNat_jumpV0Target (s : State) (nnn : Addr12) : (jumpV0Target s nnn).toNat = nnn.toNat + (s.reg 0).toNat := by
  rw [jumpV0Target, BitVec.toNat_add, Addr12.toNat_zext16, Byte.toNat_zext16]
  omega

/-- Settles O18. -/
theorem indexedJumpAddsV0 : Obligations.IndexedJumpAddsV0 := fun nnn s =>
  ⟨_, exec_jpV0Nnn nnn s, toNat_jumpV0Target s nnn, s.frame_jump _⟩

/-! ### Skips -/

/-- An instruction that skips on a test of the condition `p` goes on by R24's rule and changes nothing else. -/
theorem exec_skip {i : Instr} {s : State} {c : Bool} {p : Prop} [Decidable p] (h : exec i s = .next (s.skipIf c))
    (hc : c = true ↔ p) :
    ∃ t, exec i s = .next t ∧ t.pc = (if p then s.pc + 4 else s.pc + 2) ∧ Frame [] [] s t := by
  refine ⟨_, h, ?_, s.frame_skipIf c⟩
  simp only [State.skipIf_pc, hc]
  exact apply_ite (s.pc + ·) p 4 2

/-- Settles O19. -/
theorem immediateSkipsCompare : Obligations.ImmediateSkipsCompare := fun x kk s =>
  ⟨exec_skip (exec_seVxKk x kk s) beq_iff_eq, exec_skip (exec_sneVxKk x kk s) bne_iff_ne⟩

/-- Settles O20. -/
theorem registerSkipsCompare : Obligations.RegisterSkipsCompare := fun x y s =>
  ⟨exec_skip (exec_seVxVy x y s) beq_iff_eq, exec_skip (exec_sneVxVy x y s) bne_iff_ne⟩

end Sys2Proof.Machine
end

section
/-! Register loads and the 8-bit ALU (42_alu.md R160 to R173): the results and flags as naturals, what a written
register, and a result and flag written in either order, leave behind, and from these the eleven instructions. -/

namespace Sys2Proof

/-! ### The results as naturals (42_alu.md R171) -/

/-- R171: `(a - b) mod 256 = (a + 256 - b) mod 256`. -/
theorem Byte.toNat_sub_eq (a b : Byte) : (a - b).toNat = (a.toNat + 256 - b.toNat) % 256 := by
  rw [BitVec.toNat_sub]
  omega

theorem Byte.toNat_ushiftRight_one (a : Byte) : (a >>> 1).toNat = a.toNat / 2 := by
  rw [BitVec.toNat_ushiftRight, Nat.shiftRight_eq_div_pow, Nat.pow_one]

theorem Byte.toNat_shiftLeft_one (a : Byte) : (a <<< 1).toNat = 2 * a.toNat % 256 := by
  rw [BitVec.toNat_shiftLeft, Nat.shiftLeft_eq, Nat.pow_one, Nat.mul_comm]

end Sys2Proof

namespace Sys2Proof.Machine

/-! ### The flags as naturals (42_alu.md R171) -/

theorem toNat_flagByte (c : Bool) : (flagByte c).toNat = c.toNat := by cases c <;> rfl

theorem toNat_flagByte_decide (p : Prop) [Decidable p] : (flagByte (decide p)).toNat = if p then 1 else 0 :=
  (toNat_flagByte _).trans (Bool.cond_decide p 1 0)

theorem toNat_carryFlag (a b : Byte) : (carryFlag a b).toNat = if a.toNat + b.toNat > 255 then 1 else 0 :=
  toNat_flagByte_decide _

theorem toNat_noBorrowFlag (minuend subtrahend : Byte) :
    (noBorrowFlag minuend subtrahend).toNat = if minuend.toNat > subtrahend.toNat then 1 else 0 :=
  toNat_flagByte_decide _

/-- A flag that is a bit of a byte has the value of that binary digit. -/
theorem toNat_flagByte_getLsbD (a : Byte) (k : Nat) : (flagByte (a.getLsbD k)).toNat = a.toNat / 2 ^ k % 2 := by
  rw [toNat_flagByte, ← BitVec.testBit_toNat, Nat.toNat_testBit]

theorem toNat_shrFlag (a : Byte) : (shrFlag a).toNat = a.toNat % 2 := by
  rw [shrFlag, toNat_flagByte_getLsbD, Nat.pow_zero, Nat.div_one]

/-- Above bit 7 a byte has no digit, so the quotient is the bit. -/
theorem toNat_shlFlag (a : Byte) : (shlFlag a).toNat = a.toNat / 128 := by
  rw [shlFlag, toNat_flagByte_getLsbD]
  omega

/-! ### Frames of the writes to `V` -/

theorem State.frame_setReg (s : State) (x : Nibble) (b : Byte) : Frame [x] [] s (s.setReg x b) := by
  refine ⟨fun r hr => ?_, PartsSame.of_eq rfl⟩
  rw [State.reg_setReg, if_neg (mt List.mem_singleton.2 hr)]

theorem State.frame_setResultThenFlag (s : State) (x : Nibble) (result flag : Byte) :
    Frame [x, vf] [] s (s.setResultThenFlag x result flag) :=
  (s.frame_setReg x result).trans ((s.setReg x result).frame_setReg vf flag)

theorem State.frame_setFlagThenResult (s : State) (x : Nibble) (result flag : Byte) :
    Frame [x, vf] [] s (s.setFlagThenResult x result flag) := by
  refine ⟨fun r hr => ?_, PartsSame.of_eq rfl⟩
  obtain ⟨hx, hvf⟩ : r ≠ x ∧ r ≠ vf := by simpa using hr
  rw [State.reg_setFlagThenResult, if_neg hx, if_neg hvf]

/-! ### Flag and result (42_alu.md R172) -/

theorem State.reg_setFlagThenResult_self (s : State) (x : Nibble) (result flag : Byte) :
    (s.setFlagThenResult x result flag).reg x = result := by
  rw [State.reg_setFlagThenResult, if_pos rfl]

theorem State.reg_setFlagThenResult_vf (s : State) {x : Nibble} (result flag : Byte) (hx : x ≠ vf) :
    (s.setFlagThenResult x result flag).reg vf = flag := by
  rw [State.reg_setFlagThenResult, if_neg hx.symm, if_pos rfl]

/-! ### The meanings of the instructions -/

theorem exec_ldVxKk (x : Nibble) (kk : Byte) (s : State) : exec (.ldVxKk x kk) s = .next (s.setReg x kk).advance := rfl

theorem exec_addVxKk (x : Nibble) (kk : Byte) (s : State) :
    exec (.addVxKk x kk) s = .next (s.setReg x (s.reg x + kk)).advance := rfl

theorem exec_ldVxVy (x y : Nibble) (s : State) : exec (.ldVxVy x y) s = .next (s.setReg x (s.reg y)).advance := rfl

theorem exec_orVxVy (x y : Nibble) (s : State) :
    exec (.orVxVy x y) s = .next (s.setReg x (s.reg x ||| s.reg y)).advance := rfl

theorem exec_andVxVy (x y : Nibble) (s : State) :
    exec (.andVxVy x y) s = .next (s.setReg x (s.reg x &&& s.reg y)).advance := rfl

theorem exec_xorVxVy (x y : Nibble) (s : State) :
    exec (.xorVxVy x y) s = .next (s.setReg x (s.reg x ^^^ s.reg y)).advance := rfl

theorem exec_addVxVy (x y : Nibble) (s : State) : exec (.addVxVy x y) s =
    .next (s.setResultThenFlag x (s.reg x + s.reg y) (carryFlag (s.reg x) (s.reg y))).advance := rfl

theorem exec_subVxVy (x y : Nibble) (s : State) : exec (.subVxVy x y) s =
    .next (s.setFlagThenResult x (s.reg x - s.reg y) (noBorrowFlag (s.reg x) (s.reg y))).advance := rfl

theorem exec_shrVx (x : Nibble) (s : State) : exec (.shrVx x) s =
    .next (s.setFlagThenResult x (s.reg x >>> 1) (shrFlag (s.reg x))).advance := rfl

theorem exec_subnVxVy (x y : Nibble) (s : State) : exec (.subnVxVy x y) s =
    .next (s.setFlagThenResult x (s.reg y - s.reg x) (noBorrowFlag (s.reg y) (s.reg x))).advance := rfl

theorem exec_shlVx (x : Nibble) (s : State) : exec (.shlVx x) s =
    .next (s.setFlagThenResult x (s.reg x <<< 1) (shlFlag (s.reg x))).advance := rfl

/-! ### SUBN as SUB -/

/-- Settles O26: in the exchanged state SUB reads the operands in SUBN's order, so both write one result and one flag. -/
theorem subnIsSubExchanged : Obligations.SubnIsSubExchanged := by
  intro x y s t u hxy hx _ hsubn hsub
  obtain rfl := Host.Outcome.next.inj ((exec_subnVxVy x y s).symm.trans hsubn)
  obtain rfl := Host.Outcome.next.inj ((exec_subVxVy x y _).symm.trans hsub)
  have hminuend : ((s.setReg x (s.reg y)).setReg y (s.reg x)).reg x = s.reg y := by
    rw [State.reg_setReg, if_neg hxy, State.reg_setReg, if_pos rfl]
  have hsubtrahend : ((s.setReg x (s.reg y)).setReg y (s.reg x)).reg y = s.reg x := by
    rw [State.reg_setReg, if_pos rfl]
  rw [hminuend, hsubtrahend]
  constructor
  · simp only [State.reg_advance, State.reg_setFlagThenResult_self]
  · simp only [State.reg_advance, State.reg_setFlagThenResult_vf _ _ _ hx]

/-! ### One register written -/

/-- An instruction that writes one register, be it `VF` itself, goes on to the next and changes nothing else (R173). -/
theorem exec_writesRegister {i : Instr} {s : State} {x : Nibble} {b : Byte}
    (h : exec i s = .next (s.setReg x b).advance) :
    ∃ t, exec i s = .next t ∧ t.reg x = b ∧ t.pc = s.pc + 2 ∧ Frame [x] [] s t := by
  refine ⟨_, h, ?_, rfl, (s.frame_setReg x b).trans (s.setReg x b).frame_advance⟩
  rw [State.reg_advance, State.reg_setReg, if_pos rfl]

/-- Settles O21. -/
theorem immediateLoadAndAdd : Obligations.ImmediateLoadAndAdd := by
  intro x kk s
  obtain ⟨t, hexec, hresult, hrest⟩ := exec_writesRegister (exec_addVxKk x kk s)
  exact ⟨exec_writesRegister (exec_ldVxKk x kk s), t, hexec, by rw [hresult, BitVec.toNat_add], hrest⟩

/-- Settles O22. -/
theorem registerCopyAndLogic : Obligations.RegisterCopyAndLogic := fun x y s =>
  ⟨exec_writesRegister (exec_ldVxVy x y s), exec_writesRegister (exec_orVxVy x y s),
    exec_writesRegister (exec_andVxVy x y s), exec_writesRegister (exec_xorVxVy x y s)⟩

/-! ### A result and a flag written -/

/-- Settles O23: the carry is written last, so it stands in `VF` for every `x`. -/
theorem addWritesSumAndCarry : Obligations.AddWritesSumAndCarry := by
  intro x y s
  refine ⟨_, exec_addVxVy x y s, fun hx => ?_, ?_, rfl,
    (s.frame_setResultThenFlag x _ _).trans (State.frame_advance _)⟩
  · rw [State.reg_advance, State.reg_setResultThenFlag, if_neg hx, if_pos rfl, BitVec.toNat_add]
  · rw [State.reg_advance, State.reg_setResultThenFlag, if_pos rfl, toNat_carryFlag]

/-- An instruction that writes its flag and then its result leaves the result in `V[x]` for every `x`, and the flag in
`VF` where the result does not overwrite it. -/
theorem exec_writesFlagThenResult {i : Instr} {s : State} {x : Nibble} {result flag : Byte} {n m : Nat}
    (h : exec i s = .next (s.setFlagThenResult x result flag).advance) (hresult : result.toNat = n)
    (hflag : flag.toNat = m) :
    ∃ t, exec i s = .next t ∧ (t.reg x).toNat = n ∧ (x ≠ 15 → (t.reg 15).toNat = m) ∧
      t.pc = s.pc + 2 ∧ Frame [x, 15] [] s t := by
  refine ⟨_, h, ?_, fun hx => ?_, rfl, (s.frame_setFlagThenResult x result flag).trans (State.frame_advance _)⟩
  · rw [State.reg_advance, State.reg_setFlagThenResult_self, hresult]
  · rw [State.reg_advance, State.reg_setFlagThenResult_vf s result flag hx, hflag]

/-- Settles O24. -/
theorem subtractsWriteDifferenceAndNoBorrow : Obligations.SubtractsWriteDifferenceAndNoBorrow := fun x y s =>
  ⟨exec_writesFlagThenResult (exec_subVxVy x y s) (Byte.toNat_sub_eq _ _) (toNat_noBorrowFlag _ _),
    exec_writesFlagThenResult (exec_subnVxVy x y s) (Byte.toNat_sub_eq _ _) (toNat_noBorrowFlag _ _)⟩

/-- Settles O25. -/
theorem shiftsWriteResultAndLostBit : Obligations.ShiftsWriteResultAndLostBit := fun x s =>
  ⟨exec_writesFlagThenResult (exec_shrVx x s) (Byte.toNat_ushiftRight_one _) (toNat_shrFlag _),
    exec_writesFlagThenResult (exec_shlVx x s) (Byte.toNat_shiftLeft_one _) (toNat_shlFlag _)⟩

end Sys2Proof.Machine
end

section
/-! The address register, loads and stores (43_index_memory.md R190 to R196): what a write to `I`, a block stored and
a block loaded leave behind, and from these the six instructions. -/

namespace Sys2Proof.Machine

/-! ### Operands as naturals -/

/-- R196: the `k`-th byte from `I` is `k` bytes after the first. -/
theorem effAddr_zero_add (s : State) (k : Nat) : effAddr s 0 + k = effAddr s k := rfl

/-- Effective addresses depend on `I` only. -/
theorem effAddr_congr {s u : State} (h : u.i = s.i) (k : Nat) : effAddr u k = effAddr s k := by
  rw [effAddr, h, effAddr]

/-- R192: five times a byte fits 16 bits, so the glyph address is the full product. -/
theorem toNat_glyphAddr (b : Byte) : (glyphAddr b).toNat = b.toNat * 5 := by
  have hfits : b.toNat * 5 < 2 ^ 16 := by omega
  rw [glyphAddr, BitVec.toNat_mul, Byte.toNat_zext16]
  exact Nat.mod_eq_of_lt hfits

/-- R193: each of the three digits fits a byte. -/
theorem toNat_bcdDigits (a : Byte) :
    ((bcdDigits a).getD 0 0).toNat = a.toNat / 100 ∧ ((bcdDigits a).getD 1 0).toNat = a.toNat / 10 % 10 ∧
      ((bcdDigits a).getD 2 0).toNat = a.toNat % 10 := by
  simp only [bcdDigits, List.getD_cons_zero, List.getD_cons_succ, BitVec.toNat_ofNat]
  omega

/-! ### Frames -/

theorem State.frame_withI (s : State) (w : Word) : Frame [] [.i] s { s with i := w } := by
  refine ⟨fun _ _ => rfl, fun p hp => ?_⟩
  cases p with
  | i => simp at hp
  | mem | dispatch => exact fun _ => rfl
  | _ => rfl

theorem State.frame_withMem (s : State) (m : Memory) : Frame [] [.mem] s { s with mem := m } := by
  refine ⟨fun _ _ => rfl, fun p hp => ?_⟩
  cases p with
  | mem => simp at hp
  | dispatch => exact fun _ => rfl
  | _ => rfl

theorem State.partsSame_setRegs_advance (s : State) (r : Nat) (bs : List Byte) :
    PartsSame [] s (s.setRegs r bs).advance := by
  refine PartsSame.of_eq ?_
  rw [State.setRegs_eq]
  rfl

/-! ### The meanings of the instructions -/

theorem exec_ldINnn (nnn : Addr12) (s : State) : exec (.ldINnn nnn) s = .next { s with i := nnn.zext16 }.advance := rfl

theorem exec_addIVx (x : Nibble) (s : State) :
    exec (.addIVx x) s = .next { s with i := s.i + (s.reg x).zext16 }.advance := rfl

theorem exec_ldFVx (x : Nibble) (s : State) :
    exec (.ldFVx x) s = .next { s with i := glyphAddr (s.reg x) }.advance := rfl

theorem exec_ldBVx (x : Nibble) (s : State) :
    exec (.ldBVx x) s = outcomeOf (storeBlock (bcdDigits (s.reg x)) s) := rfl

theorem exec_ldMiVx (x : Nibble) (s : State) :
    exec (.ldMiVx x) s = outcomeOf (storeBlock (s.regsUpTo (x.toNat + 1)) s) := rfl

theorem exec_ldVxMi (x : Nibble) (s : State) : exec (.ldVxMi x) s = outcomeOf (loadBlock (x.toNat + 1) s) := rfl

/-! ### The address register written -/

/-- An instruction that writes `I` goes on to the next and changes nothing else. -/
theorem exec_writesI {i : Instr} {s : State} {w : Word} {n : Nat} (h : exec i s = .next { s with i := w }.advance)
    (hw : w.toNat = n) : ∃ t, exec i s = .next t ∧ t.i.toNat = n ∧ t.pc = s.pc + 2 ∧ Frame [] [.i] s t :=
  ⟨_, h, hw, rfl, (s.frame_withI w).trans (State.frame_advance _)⟩

/-- Settles O27. -/
theorem addressRegisterWrites : Obligations.AddressRegisterWrites := by
  intro nnn x s
  have hsum : (s.i + (s.reg x).zext16).toNat = (s.i.toNat + (s.reg x).toNat) % 65536 := by
    rw [BitVec.toNat_add, Byte.toNat_zext16]
  exact ⟨exec_writesI (exec_ldINnn nnn s) (Addr12.toNat_zext16 nnn), exec_writesI (exec_addIVx x s) hsum,
    exec_writesI (exec_ldFVx x s) (toNat_glyphAddr _)⟩

/-! ### A block stored -/

/-- An instruction that stores a block whose last byte, the `n`-th after `I`, exists leaves the block in memory from `I`
upward, goes on to the next and changes nothing else. -/
theorem exec_storesBlock {i : Instr} {s : State} {bs : List Byte} {n : Nat}
    (h : exec i s = outcomeOf (storeBlock bs s)) (hm : s.mem.wf) (hlen : bs.length = n + 1)
    (hle : effAddr s n ≤ 0xFFF) :
    ∃ t, exec i s = .next t ∧ (∀ k ≤ n, t.mem.read (effAddr s k) = bs.getD k 0) ∧
      SameMemoryOutside (effAddr s 0) (effAddr s n) s t ∧ t.pc = s.pc + 2 ∧ Frame [] [.mem] s t := by
  have hlast := effAddr_zero_add s n
  have hroom : effAddr s 0 + bs.length ≤ 0x1000 := by omega
  rcases storeBlock_cases bs s (List.ne_nil_of_length_eq_add_one hlen) with ⟨-, e⟩ | ⟨hgt, -⟩
  · refine ⟨_, h.trans (congrArg outcomeOf e), fun k hk => ?_, fun a ha => ?_, rfl,
      (s.frame_withMem _).trans (State.frame_advance _)⟩
    · exact Memory.read_writes hm (effAddr s 0) k bs (by omega) hroom
    · exact Memory.read_writes_outside _ _ _ _ (by omega)
  · omega

/-- Settles O28: the block is the three digits. -/
theorem bcdStoresThreeDigits : Obligations.BcdStoresThreeDigits := by
  intro x s hm hle
  obtain ⟨t, hexec, hread, hrest⟩ := exec_storesBlock (n := 2) (exec_ldBVx x s) hm rfl hle
  obtain ⟨hhundreds, htens, hones⟩ := toNat_bcdDigits (s.reg x)
  refine ⟨t, hexec, ?_, ?_, ?_, hrest⟩
  · rw [hread 0 (by omega), hhundreds]
  · rw [hread 1 (by omega), htens]
  · rw [hread 2 (by omega), hones]

/-- Settles O29: the block is `V[0..x]`. -/
theorem blockStoreWritesRegisters : Obligations.BlockStoreWritesRegisters := by
  intro x s hm hle
  have hlen : (s.regsUpTo (x.toNat + 1)).length = x.toNat + 1 := by
    rw [State.length_regsUpTo]
    omega
  obtain ⟨t, hexec, hread, hrest⟩ := exec_storesBlock (exec_ldMiVx x s) hm hlen hle
  refine ⟨t, hexec, fun k hk => ?_, hrest⟩
  rw [hread k.toNat hk, State.getD_regsUpTo s _ k (by omega)]

/-! ### A block loaded -/

/-- `V[0..n-1]` after a load of `n` bytes from `a` upward are those bytes; the registers above keep their values. -/
theorem State.reg_setRegs_map_range (s : State) (n : Nat) (f : Nat → Byte) (k : Nibble) :
    (s.setRegs 0 ((List.range n).map f)).reg k = if k.toNat < n then f k.toNat else s.reg k := by
  simp only [State.reg_setRegs, List.length_map, List.length_range, Nat.zero_le, true_and, Nat.zero_add, Nat.sub_zero]
  refine ite_congr rfl (fun hk => ?_) fun _ => rfl
  simp [List.getD_eq_getElem?_getD, hk]

/-- Settles O30. -/
theorem blockLoadReadsRegisters : Obligations.BlockLoadReadsRegisters := by
  intro x s hle
  have hlast := effAddr_zero_add s x.toNat
  rcases loadBlock_cases (x.toNat + 1) s (Nat.succ_pos _) with ⟨-, e⟩ | ⟨hgt, -⟩
  · refine ⟨_, (exec_ldVxMi x s).trans (congrArg outcomeOf e), fun k hk => ?_, fun k hk => ?_, ?_,
      s.partsSame_setRegs_advance 0 _⟩
    · rw [State.reg_advance, State.reg_setRegs_map_range, if_pos (by omega), effAddr_zero_add]
    · rw [State.reg_advance, State.reg_setRegs_map_range, if_neg (by omega)]
    · rw [State.advance_pc, State.setRegs_pc]
  · omega

/-- Settles O31: the load reads the bytes that the store wrote, since `I` and memory are as the store left them. -/
theorem blockStoreThenLoadRestores : Obligations.BlockStoreThenLoadRestores := by
  intro x s t u w hm hst hmem hi huw k hk
  obtain ⟨hroom, -⟩ := exec_ldMiVx_next hst
  have hle : effAddr s x.toNat ≤ 0xFFF := by
    rw [← effAddr_zero_add]
    omega
  obtain ⟨t', hstore, hstored, -⟩ := blockStoreWritesRegisters x s hm hle
  obtain ⟨w', hload, hloaded, -⟩ := blockLoadReadsRegisters x u (by rwa [effAddr_congr hi])
  obtain rfl := Host.Outcome.next.inj (hstore.symm.trans hst)
  obtain rfl := Host.Outcome.next.inj (hload.symm.trans huw)
  calc w'.reg k
      = u.mem.read (effAddr u k.toNat) := hloaded k hk
    _ = t'.mem.read (effAddr s k.toNat) := by rw [hmem, effAddr_congr hi]
    _ = s.reg k := hstored k hk

end Sys2Proof.Machine
end

section
/-! The screen (44_draw.md R211 to R213): a clear, and a sprite as the set of pixels that its set bits wrap onto. -/

namespace Sys2Proof.Machine

theorem State.frame_withScreen (s : State) (scr : Screen) : Frame [] [.screen] s { s with screen := scr } := by
  refine ⟨fun _ _ => rfl, fun p hp => ?_⟩
  cases p with
  | screen => simp at hp
  | mem | dispatch => exact fun _ => rfl
  | _ => rfl

theorem exec_cls (s : State) : exec .cls s = .next { s with screen := Screen.blank }.advance := rfl

/-- Settles O33. -/
theorem clsClearsEveryPixel : Obligations.ClsClearsEveryPixel := fun s =>
  ⟨_, exec_cls s, Screen.pixel_blank, rfl, (s.frame_withScreen _).trans (State.frame_advance _)⟩

/-! ### The rows and the points of a sprite -/

/-- The rows of the sprite of DRW Vx,Vy,n: the `n` bytes from `I` upward (R212). -/
def spriteRows (s : State) (n : Nibble) : List Byte := (List.range n.toNat).map fun r => s.mem.read (effAddr s r)

@[simp] theorem length_spriteRows (s : State) (n : Nibble) : (spriteRows s n).length = n.toNat := by
  rw [spriteRows, List.length_map, List.length_range]

theorem length_spriteRows_le (s : State) (n : Nibble) : (spriteRows s n).length ≤ 32 := by
  rw [length_spriteRows]
  omega

theorem getD_spriteRows (s : State) {n : Nibble} {r : Nat} (hr : r < n.toNat) :
    (spriteRows s n).getD r 0 = s.mem.read (effAddr s r) := by
  simp [spriteRows, List.getD_eq_getElem?_getD, hr]

/-- SPRITE_MSB_LEFT (R210). -/
theorem spriteBit_eq_getLsbD (b : Byte) (c : Nat) : spriteBit b c = b.getLsbD (7 - c) := rfl

/-- A coordinate wraps onto the screen before it selects a pixel (R210). -/
theorem Screen.pixel_mod (scr : Screen) (px py : Nat) : scr.pixel (px % 64) (py % 32) = scr.pixel px py := by
  simp only [Screen.pixel, Nat.mod_mod]

/-- The sprite covers a pixel when one of its points wraps onto it. -/
theorem spriteCovers_iff_spritePoint (s : State) (x y n : Nibble) (px py : Nat) :
    SpriteCovers s x y n px py ↔
      ∃ p ∈ spritePoints (s.reg x).toNat (s.reg y).toNat (spriteRows s n), p.1 % 64 = px ∧ p.2 % 32 = py := by
  simp only [mem_spritePoints, length_spriteRows, spriteBit_eq_getLsbD]
  constructor
  · rintro ⟨r, hr, c, hc, hbit, hpx, hpy⟩
    exact ⟨_, ⟨r, hr, c, hc, getD_spriteRows s hr ▸ hbit, rfl⟩, hpx, hpy⟩
  · rintro ⟨_, ⟨r, hr, c, hc, hbit, rfl⟩, hpx, hpy⟩
    exact ⟨r, hr, c, hc, getD_spriteRows s hr ▸ hbit, hpx, hpy⟩

theorem spriteCovers_iff_samePixel (s : State) (x y n : Nibble) {px py : Nat} (hpx : px < 64) (hpy : py < 32) :
    SpriteCovers s x y n px py ↔
      ∃ p ∈ spritePoints (s.reg x).toNat (s.reg y).toNat (spriteRows s n), SamePixel p (px, py) := by
  rw [spriteCovers_iff_spritePoint]
  simp only [SamePixel, Nat.mod_eq_of_lt hpx, Nat.mod_eq_of_lt hpy]

/-- The sprite depends on `I`, on memory and on its two coordinates. -/
theorem spriteCovers_congr {s t : State} {x y : Nibble} (hi : t.i = s.i) (hm : ∀ a, t.mem.read a = s.mem.read a)
    (hx : t.reg x = s.reg x) (hy : t.reg y = s.reg y) (n : Nibble) (px py : Nat) :
    SpriteCovers t x y n px py ↔ SpriteCovers s x y n px py := by
  simp only [SpriteCovers, effAddr_congr hi, hm, hx, hy]

/-! ### What drawing the sprite does -/

/-- Some set sprite bit lies over a pixel that is set (R212). -/
def SpriteHits (s : State) (x y n : Nibble) : Prop :=
  ∃ px < 64, ∃ py < 32, SpriteCovers s x y n px py ∧ s.screen.pixel px py = true

theorem pixel_drawSprite_of_covers {s : State} {x y n : Nibble} {px py : Nat} (hpx : px < 64) (hpy : py < 32)
    (h : SpriteCovers s x y n px py) :
    (drawSprite s x y (spriteRows s n)).1.pixel px py = !s.screen.pixel px py := by
  rw [pixel_drawSprite _ _ _ _ (length_spriteRows_le s n),
    decide_eq_true ((spriteCovers_iff_samePixel s x y n hpx hpy).1 h), Bool.xor_true]

theorem pixel_drawSprite_of_not_covers {s : State} {x y n : Nibble} {px py : Nat} (hpx : px < 64) (hpy : py < 32)
    (h : ¬ SpriteCovers s x y n px py) :
    (drawSprite s x y (spriteRows s n)).1.pixel px py = s.screen.pixel px py := by
  rw [pixel_drawSprite _ _ _ _ (length_spriteRows_le s n),
    decide_eq_false (mt (spriteCovers_iff_samePixel s x y n hpx hpy).2 h), Bool.xor_false]

theorem hit_drawSprite_iff (s : State) (x y n : Nibble) :
    (drawSprite s x y (spriteRows s n)).2 = true ↔ SpriteHits s x y n := by
  rw [hit_drawSprite _ _ _ _ (length_spriteRows_le s n), decide_eq_true_iff]
  constructor
  · rintro ⟨p, hp, hset⟩
    exact ⟨_, Nat.mod_lt p.1 (by decide), _, Nat.mod_lt p.2 (by decide),
      (spriteCovers_iff_spritePoint ..).2 ⟨p, hp, rfl, rfl⟩, (Screen.pixel_mod ..).trans hset⟩
  · rintro ⟨px, -, py, -, hcov, hset⟩
    obtain ⟨p, hp, rfl, rfl⟩ := (spriteCovers_iff_spritePoint ..).1 hcov
    exact ⟨p, hp, (Screen.pixel_mod ..).symm.trans hset⟩

theorem drawState_reg_vf (s : State) (x y : Nibble) (rows : List Byte) :
    (drawState s x y rows).reg vf = flagByte (drawSprite s x y rows).2 := by
  rw [drawState, State.reg_setReg, if_pos rfl]

theorem frame_drawState (s : State) (x y : Nibble) (rows : List Byte) :
    Frame [vf] [.screen] s (drawState s x y rows) :=
  (s.frame_withScreen _).trans (State.frame_setReg _ vf _)

/-! ### DRW -/

/-- The last row lies in memory exactly when the end of the block is at most the end of memory. -/
theorem lastRow_le_iff (s : State) (n : Nat) :
    (n = 0 ∨ effAddr s (n - 1) ≤ 0xFFF) ↔ (n = 0 ∨ effAddr s 0 + n ≤ 0x1000) := by
  rw [← effAddr_zero_add]
  omega

theorem exec_drwVxVyN {x y n : Nibble} {s : State} (hroom : n.toNat = 0 ∨ effAddr s (n.toNat - 1) ≤ 0xFFF) :
    exec (.drwVxVyN x y n) s = .next (drawState s x y (spriteRows s n)).advance := by
  rw [lastRow_le_iff] at hroom
  rcases drawBlock_cases x y n s with ⟨-, e⟩ | ⟨hpos, hgt, -⟩
  · exact congrArg outcomeOf e
  · omega

/-- Settles O34. -/
theorem drawXorsSpriteAndReportsCollision : Obligations.DrawXorsSpriteAndReportsCollision := by
  intro x y n s hroom
  refine ⟨_, exec_drwVxVyN hroom, fun px hpx py hpy =>
    ⟨pixel_drawSprite_of_covers hpx hpy, pixel_drawSprite_of_not_covers hpx hpy⟩, fun hhit => ?_, fun hmiss => ?_,
    rfl, (frame_drawState s x y _).trans (State.frame_advance _)⟩
  · rw [State.reg_advance, drawState_reg_vf, (hit_drawSprite_iff s x y n).2 hhit]
    rfl
  · rw [State.reg_advance, drawState_reg_vf, Bool.eq_false_iff.2 (mt (hit_drawSprite_iff s x y n).1 hmiss)]
    rfl

/-- Settles O35: the first draw leaves the sprite where it was, so the second inverts the same pixels back and meets as
set those that the first found clear. -/
theorem drawTwiceRestoresScreen : Obligations.DrawTwiceRestoresScreen := by
  intro x y n s t hx hy hst
  obtain ⟨hroom, -⟩ := exec_drwVxVyN_next hst
  obtain ⟨t', hst', hfirst, -, -, -, hregs, hparts⟩ :=
    drawXorsSpriteAndReportsCollision x y n s ((lastRow_le_iff s _).2 hroom)
  obtain rfl := Host.Outcome.next.inj (hst'.symm.trans hst)
  have hi : t'.i = s.i := hparts .i (by decide)
  obtain ⟨u, hu, hsecond, hhit, hmiss, -⟩ :=
    drawXorsSpriteAndReportsCollision x y n t' (by rwa [effAddr_congr hi, lastRow_le_iff])
  have hsprite := spriteCovers_congr hi (hparts .mem (by decide)) (hregs x (mt List.mem_singleton.1 hx))
    (hregs y (mt List.mem_singleton.1 hy)) n
  refine ⟨u, hu, fun px hpx py hpy => ?_, ?_⟩
  · by_cases hcov : SpriteCovers s x y n px py
    · rw [(hsecond px hpx py hpy).1 ((hsprite px py).2 hcov), (hfirst px hpx py hpy).1 hcov, Bool.not_not]
    · rw [(hsecond px hpx py hpy).2 (mt (hsprite px py).1 hcov), (hfirst px hpx py hpy).2 hcov]
  · have hclear : SpriteHits t' x y n ↔
        ∃ px < 64, ∃ py < 32, SpriteCovers s x y n px py ∧ s.screen.pixel px py = false := by
      refine exists_congr fun px => and_congr_right fun hpx => exists_congr fun py => and_congr_right fun hpy => ?_
      rw [hsprite]
      refine and_congr_right fun hcov => ?_
      rw [(hfirst px hpx py hpy).1 hcov, Bool.not_eq_true']
    rw [← hclear]
    exact ⟨fun hone => by_contra fun hno => absurd ((hmiss hno).symm.trans hone) (by decide), hhit⟩

end Sys2Proof.Machine
end

section
/-! Key skips, key wait, timer moves and RND (45_keys_timers_random.md R231 to R237): the key that a register numbers, a
byte masked, and the frame of an instruction from what it is a writer of. -/

namespace Sys2Proof

/-! ### Masks -/

/-- A masked byte has no bit outside the mask. -/
theorem Byte.and_and_not_self (r kk : Byte) : r &&& kk &&& ~~~kk = 0 := by
  rw [BitVec.and_assoc, BitVec.and_not_self]
  exact BitVec.and_zero

/-- A byte with no bit outside the mask is its own masked byte. -/
theorem Byte.and_eq_self {b kk : Byte} (h : b &&& ~~~kk = 0) : b &&& kk = b :=
  calc b &&& kk
      = b &&& kk ||| b &&& ~~~kk := by rw [h]; exact BitVec.or_zero.symm
    _ = b &&& (kk ||| ~~~kk) := BitVec.and_or_distrib_left.symm
    _ = b := by rw [BitVec.or_not_self, BitVec.and_allOnes]

end Sys2Proof

namespace Sys2Proof.Machine

/-! ### The meanings of the instructions -/

theorem exec_skpVx (x : Nibble) (s : State) : exec (.skpVx x) s = outcomeOf (keySkip x true s) := rfl

theorem exec_sknpVx (x : Nibble) (s : State) : exec (.sknpVx x) s = outcomeOf (keySkip x false s) := rfl

theorem exec_ldVxK_of_none {s : State} (x : Nibble) (h : s.lastKey = none) :
    exec (.ldVxK x) s = .next { s with blocked := true } := by
  rw [exec, execLdVxK, h]

theorem exec_ldVxK_of_some {s : State} {k : Nibble} (x : Nibble) (h : s.lastKey = some k) :
    exec (.ldVxK x) s =
      .next { (s.setReg x k.zext8) with lastKey := none, blocked := false }.advance := by
  rw [exec, execLdVxK, h]

theorem exec_ldVxDt (x : Nibble) (s : State) : exec (.ldVxDt x) s = .next (s.setReg x s.dt).advance := rfl

theorem exec_ldDtVx (x : Nibble) (s : State) : exec (.ldDtVx x) s = .next { s with dt := s.reg x }.advance := rfl

theorem exec_ldStVx (x : Nibble) (s : State) : exec (.ldStVx x) s = .next { s with st := s.reg x }.advance := rfl

theorem exec_rndVxKk (x : Nibble) (kk : Byte) (s : State) :
    exec (.rndVxKk x kk) s =
      .next { (s.setReg x (Config.rnd s.draws &&& kk)).advance with draws := s.draws + 1 } := rfl

/-! ### A register written, and the frames -/

theorem State.reg_of_v_eq_set {s t : State} {x : Nibble} {b : Byte} (h : t.v = s.v.set x.toNat b) : t.reg x = b := by
  rw [State.reg_congr (s := s.setReg x b) h, State.reg_setReg, if_pos rfl]

/-- An instruction that writes no flag changes, but for `PC`, only what it is a writer of. -/
theorem exec_frame {i : Instr} {s t : State} {regs : List Nibble} {parts : List Part} (h : exec i s = .next t)
    (hflag : writesFlag i = false) (hregs : ∀ r, writesResult i r = regs.contains r)
    (hparts : ∀ p : Part, p.writtenBy i = parts.contains p) : Frame regs parts s t := by
  refine ⟨fun r hr => ?_, fun p hp => onlyWritersChangeAnElement i s t p h ?_⟩
  · by_contra hne
    rcases onlyWritersChangeARegister i s t r h hne with hw | ⟨-, hf⟩
    · exact hr (List.contains_iff_mem.1 ((hregs r).symm.trans hw))
    · exact absurd (hflag.symm.trans hf) Bool.false_ne_true
  · rw [hparts, ← Bool.not_eq_true, List.contains_iff_mem]
    exact hp

theorem State.frame_withBlocked (s : State) (b : Bool) : Frame [] [.blocked] s { s with blocked := b } := by
  refine ⟨fun _ _ => rfl, fun p hp => ?_⟩
  cases p with
  | blocked => simp at hp
  | mem | dispatch => exact fun _ => rfl
  | _ => rfl

/-! ### Key skips -/

/-- R231: a register that holds a key number numbers that key. -/
theorem keyOperand_zext8 (k : Nibble) : keyOperand k.zext8 = .ok k := by
  have hle : k.zext8.toNat ≤ 15 := by
    rw [Nibble.toNat_zext8]
    omega
  rw [keyOperand, if_pos hle, Nibble.toNat_zext8, BitVec.ofNat_toNat, BitVec.setWidth_eq]

theorem keySkip_of_reg_eq {s : State} {x k : Nibble} (wanted : Bool) (h : s.reg x = k.zext8) :
    keySkip x wanted s = .ok (s.skipIf (s.key k == wanted)) := by
  rw [keySkip, h, keyOperand_zext8]

/-- The other numbers are no key's, whichever state of the key is wanted. -/
theorem keySkip_of_fifteen_lt {s : State} {x : Nibble} (wanted : Bool) (h : 15 < (s.reg x).toNat) :
    keySkip x wanted s = .error .keyRange := by
  rcases keySkip_cases x wanted s with ⟨hle, -⟩ | ⟨-, e⟩
  · omega
  · exact e

/-- Settles O36, by the key or the fault that the number in `V[x]` gives. -/
theorem keySkipsTestKeys : Obligations.KeySkipsTestKeys := by
  refine fun x k s => ⟨fun h => ⟨?_, ?_⟩, fun h => ⟨?_, ?_⟩⟩
  · exact exec_skip ((exec_skpVx x s).trans (congrArg outcomeOf (keySkip_of_reg_eq true h))) beq_iff_eq
  · exact exec_skip ((exec_sknpVx x s).trans (congrArg outcomeOf (keySkip_of_reg_eq false h))) beq_iff_eq
  · exact (exec_skpVx x s).trans (congrArg outcomeOf (keySkip_of_fifteen_lt true h))
  · exact (exec_sknpVx x s).trans (congrArg outcomeOf (keySkip_of_fifteen_lt false h))

/-! ### Key wait -/

/-- Settles O37, by the content of `LastKey`. -/
theorem keyWaitBlocksOrConsumes : Obligations.KeyWaitBlocksOrConsumes := by
  refine fun x s => ⟨fun hnone => ?_, fun k hk => ?_⟩
  · exact ⟨_, exec_ldVxK_of_none x hnone, rfl, rfl, s.frame_withBlocked true⟩
  have hexec := exec_ldVxK_of_some x hk
  refine ⟨_, hexec, ?_, rfl, rfl, rfl, exec_frame hexec rfl (fun r => (Bool.or_false _).symm) fun p => ?_⟩
  · rw [State.reg_of_v_eq_set (s := s) rfl, Nibble.toNat_zext8]
  · cases p <;> rfl

/-- The state of the keys and of the engine is nothing a fetch looks at. -/
theorem fetchInstr_keyPressed (key : Option Nibble) (s : State) : fetchInstr (s.keyPressed key) = fetchInstr s := by
  cases key <;> rfl

theorem State.keyReleased_blocked (key : Option Nibble) (s : State) : (s.keyReleased key).blocked = s.blocked := by
  cases key <;> rfl

/-- R233, R254: a key pressed while the engine is at LD Vx,K, be it Blocked or Running, is what the next step consumes;
it stays pressed. -/
theorem step_keyPressed_of_keyWait {s : State} {x : Nibble} (k : Nibble) (hfetch : fetchInstr s = .ok (.ldVxK x)) :
    ∃ u, step (s.keyPressed (some k)) = .next u ∧ (u.reg x).toNat = k.toNat ∧ u.pc = s.pc + 2 ∧
      u.blocked = false ∧ u.lastKey = none ∧ u.keys[k.toNat] = true := by
  have hstep := step_fetched _ _ rfl ((fetchInstr_keyPressed (some k) s).trans hfetch)
  obtain ⟨u, hexec, hreg, hlast, hrunning, hpc, -, hparts⟩ :=
    (keyWaitBlocksOrConsumes x (s.keyPressed (some k))).2 k rfl
  have hkeys : u.keys = s.keys.set k.toNat true := hparts .keys (by decide)
  refine ⟨u, hstep.trans hexec, hreg, hpc, hrunning, hlast, ?_⟩
  simp only [hkeys, Vector.getElem_set_self]

/-- Settles O38: the wait leaves `PC` and so the instruction as it was, and a release leaves the engine Blocked. -/
theorem keyPressWakesKeyWait : Obligations.KeyPressWakesKeyWait := by
  intro x k released s hb hnone hfetch
  have hwait : step s = .next { s with blocked := true } :=
    (step_fetched s _ hb hfetch).trans (exec_ldVxK_of_none x hnone)
  obtain ⟨u, hwake⟩ := step_keyPressed_of_keyWait (s := { s with blocked := true }) k hfetch
  exact ⟨_, u, hwait, rfl, rfl, step_blocked _ (State.keyReleased_blocked released _), hwake⟩

/-! ### Timers -/

/-- Settles O39. -/
theorem timerMoves : Obligations.TimerMoves := by
  refine fun x s => ⟨exec_writesRegister (exec_ldVxDt x s), ?_, ?_⟩
  · refine ⟨_, exec_ldDtVx x s, rfl, rfl, exec_frame (exec_ldDtVx x s) rfl (fun _ => rfl) fun p => ?_⟩
    cases p <;> rfl
  · refine ⟨_, exec_ldStVx x s, rfl, rfl, exec_frame (exec_ldStVx x s) rfl (fun _ => rfl) fun p => ?_⟩
    cases p <;> rfl

/-! ### RND -/

/-- Settles O40: what is masked has no bit outside the mask. -/
theorem randomIsMasked : Obligations.RandomIsMasked := by
  intro x kk s
  have hexec := exec_rndVxKk x kk s
  refine ⟨_, hexec, State.reg_of_v_eq_set (s := s) rfl, ?_, rfl, rfl,
    exec_frame hexec rfl (fun r => (Bool.or_false _).symm) fun p => ?_⟩
  · rw [State.reg_of_v_eq_set (s := s) rfl, Byte.and_and_not_self]
  · cases p <;> rfl

/-- Settles O48: the input `b` itself gives a byte `b` inside the mask. -/
theorem randomInputGivesEveryMaskedByte : Obligations.RandomInputGivesEveryMaskedByte := by
  refine fun x kk b e => ⟨⟨?_, fun h => ⟨b, _, Elements.exec_rndVxKk b x kk e, ?_⟩⟩, fun r =>
    ⟨_, Elements.exec_rndVxKk r x kk e, rfl⟩⟩
  · rintro ⟨r, e', h, rfl⟩
    rw [Elements.exec_rndVxKk] at h
    obtain rfl := Host.Outcome.next.inj h
    rw [Vector.getElem_set_self, Byte.and_and_not_self]
  · rw [Vector.getElem_set_self, Byte.and_eq_self h]

end Sys2Proof.Machine
end

section
/-! Undefined conditions, `tick` and the key events (60_exceptions.md R251, R253 to R255): an instruction faults exactly
where the catalogue says so, a timer counts down to 0, and a key written is that key alone. -/

namespace Sys2Proof.Machine

/-! ### The catalogue of Undefined conditions (R251) -/

/-- The instruction completes where the catalogue has no condition for it, and else faults with the reason given there. -/
def FollowsCatalogue (i : Instr) (s : State) : Prop :=
  (undefinedReason i s = none ∧ ∃ t, exec i s = .next t) ∨
  ∃ f, undefinedReason i s = some f ∧ exec i s = .fault f

/-- For an instruction with one condition `p` and one reason `f` it is enough that its computation fails exactly under
`p`. -/
theorem FollowsCatalogue.of_condition {i : Instr} {s t : State} {f : Fault} {e : Except Fault State} {p : Prop}
    [Decidable p] (hreason : undefinedReason i s = if p then some f else none) (hexec : exec i s = outcomeOf e)
    (h : (¬ p ∧ e = .ok t) ∨ (p ∧ e = .error f)) : FollowsCatalogue i s := by
  rcases h with ⟨hp, rfl⟩ | ⟨hp, rfl⟩
  · exact .inl ⟨hreason.trans (if_neg hp), t, hexec⟩
  · exact .inr ⟨f, hreason.trans (if_pos hp), hexec⟩

/-- R65: the byte `n` after `I` lies above 0xFFF exactly when the block of `n + 1` bytes ends past memory. -/
theorem lastByte_gt_iff (s : State) (n : Nat) : 0xFFF < s.i.toNat + n ↔ 0x1000 < effAddr s 0 + (n + 1) := by
  rw [effAddr]
  omega

theorem followsCatalogue_of_storeBlock {i : Instr} {s : State} {bs : List Byte} {n : Nat}
    (hreason : undefinedReason i s = if 0xFFF < s.i.toNat + n then some .memRange else none)
    (hexec : exec i s = outcomeOf (storeBlock bs s)) (hlen : bs.length = n + 1) : FollowsCatalogue i s := by
  have h := storeBlock_cases bs s (List.ne_nil_of_length_eq_add_one hlen)
  rw [hlen, ← Nat.not_lt, ← lastByte_gt_iff] at h
  exact .of_condition hreason hexec h

theorem followsCatalogue_ldVxMi (x : Nibble) (s : State) : FollowsCatalogue (.ldVxMi x) s := by
  have h := loadBlock_cases (x.toNat + 1) s (Nat.succ_pos _)
  rw [← Nat.not_lt, ← lastByte_gt_iff] at h
  exact .of_condition rfl (exec_ldVxMi x s) h

/-- A sprite without rows reads no memory; else its last row is the byte `n - 1` after `I` (R212). -/
theorem followsCatalogue_drwVxVyN (x y n : Nibble) (s : State) : FollowsCatalogue (.drwVxVyN x y n) s := by
  have hlast := lastByte_gt_iff s (n.toNat - 1)
  refine .of_condition rfl rfl ((drawBlock_cases x y n s).imp (And.imp_left fun hroom => ?_) ?_)
  · omega
  · rintro ⟨hpos, hgt, e⟩
    exact ⟨by omega, e⟩

theorem followsCatalogue_of_keySkip {i : Instr} {s : State} {x : Nibble} {wanted : Bool}
    (hreason : undefinedReason i s = if 15 < (s.reg x).toNat then some .keyRange else none)
    (hexec : exec i s = outcomeOf (keySkip x wanted s)) : FollowsCatalogue i s :=
  .of_condition hreason hexec ((keySkip_cases x wanted s).imp_left (And.imp_left Nat.not_lt.2))

theorem followsCatalogue_ldVxK (x : Nibble) (s : State) : FollowsCatalogue (.ldVxK x) s := by
  refine .inl ⟨rfl, ?_⟩
  rcases execLdVxK_cases x s with ⟨-, e⟩ | ⟨k, -, e⟩
  · exact ⟨_, e⟩
  · exact ⟨_, e⟩

/-- R250, R251: six instructions have a condition, and the others always complete. -/
theorem exec_followsCatalogue (i : Instr) (s : State) : FollowsCatalogue i s := by
  cases i with
  | drwVxVyN x y n => exact followsCatalogue_drwVxVyN x y n s
  | ldBVx x => exact followsCatalogue_of_storeBlock rfl (exec_ldBVx x s) rfl
  | ldMiVx x =>
    have hlen : (s.regsUpTo (x.toNat + 1)).length = x.toNat + 1 := by
      rw [State.length_regsUpTo]
      omega
    exact followsCatalogue_of_storeBlock rfl (exec_ldMiVx x s) hlen
  | ldVxMi x => exact followsCatalogue_ldVxMi x s
  | skpVx x => exact followsCatalogue_of_keySkip rfl (exec_skpVx x s)
  | sknpVx x => exact followsCatalogue_of_keySkip rfl (exec_sknpVx x s)
  | ldVxK x => exact followsCatalogue_ldVxK x s
  | _ => exact .inl ⟨rfl, _, rfl⟩

/-- Settles O32: an outcome is one of the two that the catalogue leaves. -/
theorem faultsAreTheCatalogue : Obligations.FaultsAreTheCatalogue := by
  intro i s
  refine ⟨fun f => ?_, exec_ne_refused i s, fun hnone => ?_⟩
  · rcases exec_followsCatalogue i s with ⟨hr, t, e⟩ | ⟨g, hr, e⟩
    · simp [hr, e]
    · simp [hr, e]
  · rcases exec_followsCatalogue i s with ⟨-, hnext⟩ | ⟨f, hr, -⟩
    · exact hnext
    · exact nomatch hnone.symm.trans hr

/-! ### `tick` (R253) -/

theorem toNat_countDown (t : Byte) : (countDown t).toNat = t.toNat - 1 := by
  rw [countDown]
  split <;> bv_omega

theorem State.frame_tick (s : State) : Frame [] [.dt] s s.tick := by
  refine ⟨fun _ _ => rfl, fun p hp => ?_⟩
  cases p with
  | dt => simp at hp
  | mem | dispatch => exact fun _ => rfl
  | _ => rfl

/-- Settles O53. -/
theorem tickCountsDelayTimerDown : Obligations.TickCountsDelayTimerDown := fun s =>
  ⟨toNat_countDown s.dt, s.tick_st, s.tick_pc, s.frame_tick⟩

/-! ### The key events (R254, R255) -/

/-- A key written is read back; every other key is as before. -/
theorem State.key_setKey (s : State) (k j : Nibble) (b : Bool) :
    (s.setKey k b).key j = if j = k then b else s.key j := by
  simp only [State.key, State.setKey_keys, Vector.getElem_set, eq_comm (a := k.toNat), BitVec.toNat_inj]

theorem State.frame_setKey (s : State) (k : Nibble) (b : Bool) : Frame [] [.keys] s (s.setKey k b) := by
  refine ⟨fun r _ => State.reg_setKey s k b r, fun p hp => ?_⟩
  cases p with
  | keys => simp at hp
  | _ => simp [Part.Same]

theorem State.frame_keyPressed (s : State) (k : Nibble) :
    Frame [] [.keys, .lastKey, .blocked] s (s.keyPressed (some k)) := by
  refine ⟨fun r _ => State.reg_setKey s k true r, fun p hp => ?_⟩
  cases p with
  | keys | lastKey | blocked => simp at hp
  | mem | dispatch => exact fun _ => rfl
  | _ => rfl

/-- Settles O54: both events write one key, a press also `LastKey` and Blocked. -/
theorem keyEventsUpdateKeypad : Obligations.KeyEventsUpdateKeypad := by
  intro k s
  have hself (b : Bool) : (s.setKey k b).key k = b := by rw [State.key_setKey, if_pos rfl]
  have hother (b : Bool) {j : Nibble} (hj : j ≠ k) : (s.setKey k b).key j = s.key j := by
    rw [State.key_setKey, if_neg hj]
  exact ⟨rfl, rfl, hself true, rfl, rfl, hself false, fun j hj => ⟨hother true hj, hother false hj⟩,
    rfl, s.frame_keyPressed k, rfl, s.frame_setKey k false⟩

end Sys2Proof.Machine
end

section
/-! Reset and load after a history (70_reset_and_hazards.md R290, R294; 40_dispatch_engine.md R122): each reads of the
state it finds only the model's draw counter, which a reset hands on. -/

namespace Sys2Proof.Machine

/-- `load` resets before it compiles, so a reset before it makes no difference. -/
theorem load_hostReset (bytes : List Byte) (s : State) : load bytes s.hostReset = load bytes s := rfl

/-- Settles O55: a history that ends in `t` leaves the next event `t` alone, and a reset or a load forgets it. -/
theorem resetForgetsEverything : Obligations.ResetForgetsEverything := by
  intro ops s t h
  refine ⟨hostRun_append [.reset] h, fun bytes => ?_⟩
  calc hostRun (ops ++ [.load bytes]) s
    _ = hostRun [.load bytes] t := hostRun_append [.load bytes] h
    _ = hostRun [.load bytes] t.hostReset := by simp only [hostRun, hostExec, load_hostReset]

end Sys2Proof.Machine
end
